-- ==== Sys2Proof/Word.lean ====
section
/-! DEFINITION. The two widths of the block (00_scope.md R9): octets and the 16-bit checksum. -/

namespace Sys2Proof

/-- An octet, `u8` (00_scope.md R9). -/
abbrev Byte := BitVec 8

/-- A 16-bit value, `u16`: the checksum and the CRC register (00_scope.md R9). -/
abbrev Half := BitVec 16

end Sys2Proof
end

