-- ==== Sys2Proof/Config.lean ====
section
/-! DEFINITION. The named constants of the block, each with its one admitted value (00_scope.md R7, R8;
92_eei_decisions.md D27), and what the environment leaves free: the Payload Processor (43_dispatcher.md R166). -/

namespace Sys2Proof

/-- The record of named constants (00_scope.md R7, R8). UNVERIFIED against the original firmware, as the
spec says of its own literals (91_not_in_source.md N3); log entry 15. -/
structure Constants where
  /-- `CAPACITY`: octets in `receive_buffer`, the maximum frame size. -/
  capacity : Nat
  /-- `TXB_CAPACITY` (92_eei_decisions.md D9). -/
  txbCapacity : Nat
  /-- `PLB_CAPACITY` (92_eei_decisions.md D9). -/
  plbCapacity : Nat
  /-- `FLAG`: the start and end delimiter octet. -/
  flag : Byte
  /-- `ESC`: the escape octet. -/
  esc : Byte
  /-- `ESC_MASK`: the escaped octet is the original xor this mask. -/
  escMask : Byte
  /-- `CTRL_INFO`: the information-frame marker. -/
  ctrlInfo : Byte
  /-- `CTRL_PF`: the poll flag, also the final flag. -/
  ctrlPf : Byte
  /-- `CTRL_CMD`: the control value a received command must equal. -/
  ctrlCmd : Byte
  /-- `CTRL_REPLY`: the control value of every transmitted addressed frame. -/
  ctrlReply : Byte
  /-- `CRC_INIT`: the initial value of the CRC register. -/
  crcInit : Half
  /-- `CRC_POLY`: the generator polynomial, bit-reversed form. -/
  crcPoly : Half
  /-- `HEADER_LEN`: source, destination, control. -/
  headerLen : Nat
  /-- `FCS_LEN`: crc_hi, crc_lo. -/
  fcsLen : Nat
  /-- `MIN_FRAME`: header and checksum, no payload. -/
  minFrame : Nat
  /-- `DISPATCH_ABOVE`: a frame is dispatched only when `receive_index` exceeds this (90_conflicts.md C1). -/
  dispatchAbove : Nat
  /-- `TX_MAX_PAYLOAD`: the largest `len` that `TXFRAME` accepts. -/
  txMaxPayload : Nat
  /-- `RAW_MAX_PAYLOAD`: the largest `len` that `TXRAW` accepts; OPEN in the spec with default 254
  (92_eei_decisions.md D15), log entry 16. -/
  rawMaxPayload : Nat
  deriving DecidableEq, Repr

/-- The block's constants: the only admitted value of each (00_scope.md R7, R8). -/
abbrev cfg : Constants where
  capacity := 256
  txbCapacity := 256
  plbCapacity := 256
  flag := 0x7E
  esc := 0x7D
  escMask := 0x20
  ctrlInfo := 0x03
  ctrlPf := 0x10
  ctrlCmd := 0x13
  ctrlReply := 0x13
  crcInit := 0xFFFF
  crcPoly := 0x8408
  headerLen := 3
  fcsLen := 2
  minFrame := 5
  dispatchAbove := 5
  txMaxPayload := 251
  rawMaxPayload := 254

/-- What the Payload Processor does in one call within its contract (43_dispatcher.md R166;
92_eei_decisions.md D11, D12): it writes any octets of `PLB[0..256)`, in order, and returns an integer. -/
structure ProcAnswer where
  /-- The octets written, in order; the index is 0..255 by its type. -/
  writes : List (Fin 256 × Byte)
  /-- `reply_len`; 0 or negative means "no reply". -/
  reply : Int
  deriving DecidableEq, Repr, Inhabited

/-- What the Payload Processor must not do (43_dispatcher.md R166). -/
inductive ContractBreach where
  /-- It wrote a field of the session other than `PLB`. -/
  | wroteSession
  /-- It issued a command to the block from inside the call. -/
  | issuedCommand
  /-- It did not return. -/
  | didNotReturn
  deriving DecidableEq, Repr

/-- One turn of the Payload Processor: an answer, or a breach of its contract, which the spec puts outside
itself and refuses (93_implementation_defined.md U3, U9). -/
inductive ProcTurn where
  | returns (a : ProcAnswer)
  | breaks (how : ContractBreach)
  deriving DecidableEq, Repr

/-- FREE VALUE: the answer of a Payload Processor the state holds no script for, numbered by the state's
counter; nothing is known of it (43_dispatcher.md R166: "the model must not assume it is a function of the
payload alone"). DESIGN CHOICE, log entry 4. -/
opaque Config.procAnswer : Nat → ProcAnswer

end Sys2Proof
end

