-- ==== Sys2Proof/Syntax.lean ====
section
/-! DEFINITION. The operations of the block, one constructor per row of spec/opcode_table.json
(00_scope.md R2, 30_encoding.md R94), and the words that encode them (30_encoding.md R88, R89, R90). -/

namespace Sys2Proof

/-- An operation of the block. The operands are the bits of its word that its pattern leaves free, and for
a command its operands (30_encoding.md R88, R89, R90). -/
inductive Instr where
  /-- `RX.START` (42_rx_assembler.md R142). -/
  | rxStart
  /-- `RX.IDLE`, octet other than FLAG (R143). -/
  | rxIdle (b : Byte)
  /-- `RX.ESC` (R144). -/
  | rxEsc
  /-- `RX.FLAG.IDLE` (R145). -/
  | rxFlagIdle
  /-- `RX.FLAG.DISPATCH` (R146). -/
  | rxFlagDispatch
  /-- `RX.FLAG.SHORT` (R147). -/
  | rxFlagShort
  /-- `RX.DATA(b)`, octet other than FLAG and ESC (R148). -/
  | rxData (b : Byte)
  /-- `RX.OVERRUN`, octet other than FLAG and ESC, dropped (R149). -/
  | rxOverrun (b : Byte)
  /-- `RX.UNESC(b)`, any octet (R150). -/
  | rxUnesc (b : Byte)
  /-- `RX.UNESC.OVERRUN`, any octet, dropped (R151). -/
  | rxUnescOverrun (b : Byte)
  /-- `DISPATCH` of a frame with this header (43_dispatcher.md R168; the header word is 30_encoding.md R89). -/
  | dispatch (source dest control : Byte)
  /-- `INIT own_addr, crc_en` (70_reset_and_hazards.md R230). -/
  | init (ownAddr : Byte) (crcEn : Bool)
  /-- `RXBYTE b` (42_rx_assembler.md R141). -/
  | rxbyte (b : Byte)
  /-- `TXFRAME payload[0..len), len`, with `len` the payload's length (44_tx_framer.md R184). -/
  | txframe (payload : List Byte)
  /-- `TXRAW payload[0..len), len` (44_tx_framer.md R187). -/
  | txraw (payload : List Byte)
  /-- `CRC16 bytes[0..len), len` (40_crc.md R121). -/
  | crc16 (bytes : List Byte)
  /-- `ENCBYTE b` (41_codec.md R131). -/
  | encbyte (b : Byte)
  deriving DecidableEq, Repr

/-- A transaction on the command port: the op code `CMD[2:0]` and the operand octets (30_encoding.md R90;
92_eei_decisions.md D1, D2). The order of the operand octets is a DESIGN CHOICE, log entry 7. -/
structure Command where
  op : BitVec 3
  operands : List Byte
  deriving DecidableEq, Repr

/-- The word of an operation, in one of the three formats of opcode_table.json. -/
inductive Word where
  /-- `RXW`: state code in bits 9..8, octet in bits 7..0 (30_encoding.md R88). -/
  | rxw (w : BitVec 10)
  /-- `FRAMEHDR`: body octet 0 in the high bits (30_encoding.md R89). -/
  | framehdr (w : BitVec 24)
  /-- `CMD` (30_encoding.md R90). -/
  | cmd (c : Command)
  deriving DecidableEq, Repr

/-- The three values of `state` (10_state.md R29); there is no fourth. -/
inductive RxState where
  | awaitingStart
  | receivingData
  | processingEscape
  deriving DecidableEq, Repr

end Sys2Proof
end

