-- ==== Sys2Proof/WellFormed.lean ====
section
/-! DEFINITION. Which terms of `Instr` an opcode row stands for. -/

namespace Sys2Proof

/-- A term is well-formed when its octets are ones its row admits: RX.IDLE is taken only if row 1 is not,
RX.DATA and RX.OVERRUN only if rows 3 to 6 are not (30_encoding.md R88), and the header word of DISPATCH
has the control octet 0x13 (30_encoding.md R89). Every other operand is free: every address is legal (R84)
and a payload may have any length (an overlong one raises LenError, 44_tx_framer.md R180). -/
def Instr.wf : Instr → Bool
  | .rxStart => true
  | .rxIdle b => b != cfg.flag
  | .rxEsc => true
  | .rxFlagIdle => true
  | .rxFlagDispatch => true
  | .rxFlagShort => true
  | .rxData b => b != cfg.flag && b != cfg.esc
  | .rxOverrun b => b != cfg.flag && b != cfg.esc
  | .rxUnesc _ => true
  | .rxUnescOverrun _ => true
  | .dispatch _ _ control => control == cfg.ctrlCmd
  | .init _ _ => true
  | .rxbyte _ => true
  | .txframe _ => true
  | .txraw _ => true
  | .crc16 _ => true
  | .encbyte _ => true

end Sys2Proof
end

