-- ==== Sys2Proof/Decode.lean ====
section
/-! DEFINITION. Decoding the three formats (30_encoding.md R88, R89, R90), total, every word that stands for
no operation rejected by name; then the encoder, written from the same rules. -/

namespace Sys2Proof

/-- Why a word stands for no operation. -/
inductive Reject where
  /-- State code `0b11` (30_encoding.md R91; 93_implementation_defined.md U7). -/
  | stateCode
  /-- A receive index no row covers (above 256, which 10_state.md R26 excludes). -/
  | indexRange
  /-- A header the filter ignores by its control octet (30_encoding.md R89, R91). -/
  | headerIgnored
  /-- Command op code 6 or 7 (30_encoding.md R90, R91; 93_implementation_defined.md U8). -/
  | reservedOp (op : BitVec 3)
  /-- A command whose operands are not the ones 30_encoding.md R90 lists for it. -/
  | badOperands (op : BitVec 3)
  deriving DecidableEq, Repr

/-! ## The receive word -/

/-- The state codes (10_state.md R29). -/
def RxState.code : RxState → BitVec 2
  | .awaitingStart => 0b00
  | .receivingData => 0b01
  | .processingEscape => 0b10

/-- The state of a code; `0b11` is no state (10_state.md R29). -/
def RxState.ofCode (c : BitVec 2) : Option RxState :=
  if c = 0b00 then some .awaitingStart
  else if c = 0b01 then some .receivingData
  else if c = 0b10 then some .processingEscape
  else none

/-- `RXW = S.state[1:0] ++ b[7:0]` (30_encoding.md R88). -/
def rxWord (st : RxState) (b : Byte) : BitVec 10 := st.code ++ b

/-- Whether `w` matches the pattern `match` under `mask` (opcode_table.json). -/
def matchesRow (w mask pat : BitVec 10) : Bool := w &&& mask == pat

/-- The ten `RXW` rows, tried in the order given; the first whose pattern and index condition hold is taken
(30_encoding.md R88). -/
def decodeRx (w : BitVec 10) (index : Nat) : Except Reject Instr :=
  let b : Byte := w.extractLsb' 0 8
  if matchesRow w 0x3FF 0x07E then .ok .rxStart
  else if matchesRow w 0x300 0x000 then .ok (.rxIdle b)
  else if matchesRow w 0x3FF 0x17D then .ok .rxEsc
  else if matchesRow w 0x3FF 0x17E ∧ index = 0 then .ok .rxFlagIdle
  else if matchesRow w 0x3FF 0x17E ∧ cfg.dispatchAbove < index then .ok .rxFlagDispatch
  else if matchesRow w 0x3FF 0x17E ∧ 0 < index ∧ index ≤ cfg.dispatchAbove then .ok .rxFlagShort
  else if matchesRow w 0x300 0x100 ∧ index < cfg.capacity then .ok (.rxData b)
  else if matchesRow w 0x300 0x100 ∧ index = cfg.capacity then .ok (.rxOverrun b)
  else if matchesRow w 0x300 0x200 ∧ index < cfg.capacity then .ok (.rxUnesc b)
  else if matchesRow w 0x300 0x200 ∧ index = cfg.capacity then .ok (.rxUnescOverrun b)
  else if matchesRow w 0x300 0x300 then .error .stateCode
  else .error .indexRange

/-! ## The frame header -/

/-- The `FRAMEHDR` row: `ssssssss dddddddd 00010011`, body octet 0 in the high bits (30_encoding.md R89). -/
def decodeHeader (w : BitVec 24) : Except Reject Instr :=
  if w &&& 0x0000FF = 0x000013 then
    .ok (.dispatch (w.extractLsb' 16 8) (w.extractLsb' 8 8) (w.extractLsb' 0 8))
  else .error .headerIgnored

/-! ## The command port -/

/-- The 1-bit operand `crc_en` in its octet: 0 or 1 (DESIGN CHOICE, log entry 7). -/
def decodeBit (b : Byte) : Option Bool :=
  if b = 0 then some false else if b = 1 then some true else none

/-- The six commands by op code (30_encoding.md R90). `crc_en` may be left out and is then 1
(10_state.md R31, 30_encoding.md R93). -/
def decodeCommand (c : Command) : Except Reject Instr :=
  if c.op = 0 then
    match c.operands with
    | [own] => .ok (.init own true)
    | [own, en] =>
      match decodeBit en with
      | some crcEn => .ok (.init own crcEn)
      | none => .error (.badOperands c.op)
    | _ => .error (.badOperands c.op)
  else if c.op = 1 then
    match c.operands with
    | [b] => .ok (.rxbyte b)
    | _ => .error (.badOperands c.op)
  else if c.op = 2 then .ok (.txframe c.operands)
  else if c.op = 3 then .ok (.txraw c.operands)
  else if c.op = 4 then .ok (.crc16 c.operands)
  else if c.op = 5 then
    match c.operands with
    | [b] => .ok (.encbyte b)
    | _ => .error (.badOperands c.op)
  else .error (.reservedOp c.op)

/-- The decoder of all three formats; `index` is `S.receive_index`, which only the `RXW` rows read. -/
def decode (index : Nat) : Word → Except Reject Instr
  | .rxw w => decodeRx w index
  | .framehdr w => decodeHeader w
  | .cmd c => decodeCommand c

/-! ## The encoder -/

/-- The octet that holds `crc_en` (DESIGN CHOICE, log entry 7). -/
def encodeBit (b : Bool) : Byte := if b then 1 else 0

/-- The word of an operation, from the patterns of 30_encoding.md R88 to R90. -/
def encode : Instr → Word
  | .rxStart => .rxw 0b0001111110
  | .rxIdle b => .rxw (0b00#2 ++ b)
  | .rxEsc => .rxw 0b0101111101
  | .rxFlagIdle => .rxw 0b0101111110
  | .rxFlagDispatch => .rxw 0b0101111110
  | .rxFlagShort => .rxw 0b0101111110
  | .rxData b => .rxw (0b01#2 ++ b)
  | .rxOverrun b => .rxw (0b01#2 ++ b)
  | .rxUnesc b => .rxw (0b10#2 ++ b)
  | .rxUnescOverrun b => .rxw (0b10#2 ++ b)
  | .dispatch source dest control => .framehdr (source ++ dest ++ control)
  | .init own crcEn => .cmd ⟨0, [own, encodeBit crcEn]⟩
  | .rxbyte b => .cmd ⟨1, [b]⟩
  | .txframe payload => .cmd ⟨2, payload⟩
  | .txraw payload => .cmd ⟨3, payload⟩
  | .crc16 bytes => .cmd ⟨4, bytes⟩
  | .encbyte b => .cmd ⟨5, [b]⟩

/-- The condition on `S.receive_index` of an operation's row (30_encoding.md R88); rows of the other two
formats have none. -/
def Instr.indexCondition : Instr → Nat → Bool
  | .rxFlagIdle, index => index == 0
  | .rxFlagDispatch, index => cfg.dispatchAbove < index
  | .rxFlagShort, index => 0 < index && index ≤ cfg.dispatchAbove
  | .rxData _, index => index < cfg.capacity
  | .rxOverrun _, index => index == cfg.capacity
  | .rxUnesc _, index => index < cfg.capacity
  | .rxUnescOverrun _, index => index == cfg.capacity
  | .rxStart, _ => true
  | .rxIdle _, _ => true
  | .rxEsc, _ => true
  | .dispatch _ _ _, _ => true
  | .init _ _, _ => true
  | .rxbyte _, _ => true
  | .txframe _, _ => true
  | .txraw _, _ => true
  | .crc16 _, _ => true
  | .encbyte _, _ => true

/-! ## The table's words, for the host -/

/-- The operation code octets of a command of the table with operands of zeros (a payload of length 0). -/
def zeroOperands (op : BitVec 3) : List Byte :=
  if op = 0 then [0, 0]
  else if op = 1 ∨ op = 5 then [0]
  else []

/-- The word whose bits opcode_table.json numbers as `w`, or none where `w` has bits its format lacks. A
format is told by its width in whole bytes: 8 is `CMD`, 16 is `RXW`, 24 is `FRAMEHDR`. -/
def tableWord (nbits w : Nat) : Option Word :=
  if nbits ≤ 8 then
    if w < 2 ^ 3 then some (.cmd ⟨BitVec.ofNat 3 w, zeroOperands (BitVec.ofNat 3 w)⟩) else none
  else if nbits ≤ 16 then
    if w < 2 ^ 10 then some (.rxw (BitVec.ofNat 10 w)) else none
  else if nbits ≤ 24 then
    if w < 2 ^ 24 then some (.framehdr (BitVec.ofNat 24 w)) else none
  else none

/-- The operation the decoder reads from a table word. Rows 4 to 6, 7 and 8, 9 and 10 of `RXW` share their
words and differ only in `S.receive_index`, which a word does not hold: it is taken as 0, its value after
reset (DESIGN CHOICE, log entry 10). -/
def decodeTableWord (nbits w : Nat) : Option Instr :=
  match tableWord nbits w with
  | none => none
  | some x =>
    match decode 0 x with
    | .ok i => some i
    | .error _ => none

end Sys2Proof
end

