-- ==== Sys2Proof/Machine/State.lean ====
section
/-! DEFINITION. The state of the block: the Link Session State (10_state.md R20 to R38), the result of a run
(70_reset_and_hazards.md R234) and the environment's inputs (10_state.md R37). Plain data. -/

namespace Sys2Proof.Machine

/-- A 256-octet buffer (20_memory.md R50) as its octets that are not 0x00, by rising index; an unlisted
index reads 0x00, what INIT and SessionReset give every octet (10_state.md R36, 42_rx_assembler.md R140).
`Memory.wf` in Machine/Ops.lean is the canonical form. Log entry 13. -/
abbrev Memory := List Host.Cell

/-- The Link Session State `S` (10_state.md R20). An Option field is the spec's own "no value". -/
structure Session where
  /-- `own_address` (10_state.md R21). -/
  ownAddress : Byte
  /-- `crc_check_enable`, 1 bit (10_state.md R31). -/
  crcCheckEnable : Bool
  /-- `peer_source_address`, or no value before the first acceptance (10_state.md R22). -/
  peerSourceAddress : Option Byte
  /-- `control_byte`, or no value before the first acceptance (10_state.md R23). -/
  controlByte : Option Byte
  /-- `receive_index`, 0..256 (10_state.md R26). -/
  receiveIndex : Nat
  /-- `expected_crc`, or no value before it is first written (10_state.md R28). -/
  expectedCrc : Option Half
  /-- `state` (10_state.md R29). -/
  state : RxState
  /-- `receive_buffer`, `RXB` (10_state.md R24). -/
  rxb : Memory
  /-- `transmit_buffer`, `TXB` (10_state.md R25). -/
  txb : Memory
  /-- `payload_buffer`, `PLB` (10_state.md R27). -/
  plb : Memory
  deriving DecidableEq, Repr

/-- The two observable events (60_exceptions.md R200). -/
inductive Event where
  /-- `CrcError` (60_exceptions.md R205). -/
  | crcError
  /-- `LenError(len)` with the offending length (60_exceptions.md R206). -/
  | lenError (len : Nat)
  deriving DecidableEq, Repr

/-- One call of the Payload Processor, `Proc(n)`: the payload length on the call-out port and the session as
the processor saw it (43_dispatcher.md R166). -/
structure ProcCall where
  n : Nat
  seen : Session
  deriving DecidableEq, Repr

/-- The machine. -/
structure State where
  /-- `S`, or nothing before the first INIT (70_reset_and_hazards.md R231). -/
  session : Option Session
  /-- The octets handed to the Byte Sink, in order (10_state.md R37, 44_tx_framer.md R181). -/
  sink : List Byte
  /-- The Payload Processor calls, in order (70_reset_and_hazards.md R234). -/
  calls : List ProcCall
  /-- The events, in order (70_reset_and_hazards.md R234). -/
  events : List Event
  /-- The values returned by CRC16, in order (40_crc.md R121). -/
  results : List Half
  /-- The commands the host issues next (70_reset_and_hazards.md R234). MODEL's own, log entry 1. -/
  hostCommands : List Command
  /-- The Payload Processor's next turns (30_encoding.md R93, `PROC:`). MODEL's own, log entry 4. -/
  procScript : List ProcTurn
  /-- How many free answers have been taken (`Config.procAnswer`). MODEL's own, log entry 5. -/
  procCount : Nat
  deriving DecidableEq, Repr

/-- Faults: none. The block never traps, and nothing in it is stuck (60_exceptions.md R200, R211;
70_reset_and_hazards.md R234); its error conditions are events. Log entry 12. -/
inductive Fault where
  deriving DecidableEq, Repr

/-- Refusals: the cases to which the spec gives no meaning (`refuse`, 00_scope.md R11). All are safe: nothing
is proved through them. -/
inductive Refusal where
  /-- Raised by an arm of `exec` that has no meaning yet; safe. -/
  | notModelled (mnemonic : String)
  /-- Raised by every operation but INIT, CRC16 and ENCBYTE before the first INIT
  (70_reset_and_hazards.md R231); safe. -/
  | noSession
  /-- Raised by TXFRAME of a legal length while `peer_source_address` has no value: the spec's own `refuse`
  (44_tx_framer.md R184, R186; 92_eei_decisions.md D19; 93_implementation_defined.md U4); safe. -/
  | noPeer
  /-- Raised by DISPATCH, alone or inside RX.FLAG.DISPATCH, with `length < 5` or `> 256`
  (43_dispatcher.md R160); safe. -/
  | dispatchLength (length : Nat)
  /-- Raised by a micro-operation, or by DISPATCH of a header, run where its row does not select it ("Selected
  when", 42_rx_assembler.md R142 to R151); no RXBYTE with an index in 0..256 raises it. Safe, log entry 6. -/
  | notSelected
  /-- Raised by the Payload Processor call when the processor breaks its contract (43_dispatcher.md R166,
  93_implementation_defined.md U3, U9); safe. -/
  | processorContract (how : ContractBreach)
  /-- Raised by `step` for a command that stands for no operation (30_encoding.md R91,
  93_implementation_defined.md U8); safe. -/
  | undecodable (why : Reject)
  deriving DecidableEq, Repr

/-- Before the first INIT: no session (70_reset_and_hazards.md R231). -/
def State.powerOn : State where
  session := none
  sink := []
  calls := []
  events := []
  results := []
  hostCommands := []
  procScript := []
  procCount := 0

/-- Right after the hardware reset, which is INIT (70_reset_and_hazards.md R230): the values of
10_state.md R36 with `crc_en` at its default 1, and `own_addr` 0x00, which is the model's (DESIGN CHOICE,
log entry 2), as are the empty lists (log entries 1, 4, 8) and the counter (log entry 5). -/
def State.reset : State where
  session := some
    { ownAddress := 0x00
      crcCheckEnable := true
      peerSourceAddress := none
      controlByte := none
      receiveIndex := 0
      expectedCrc := none
      state := .awaitingStart
      rxb := []
      txb := []
      plb := [] }
  sink := []
  calls := []
  events := []
  results := []
  hostCommands := []
  procScript := []
  procCount := 0

end Sys2Proof.Machine
end

