-- ==== Sys2Proof/Machine/Ops.lean ====
section
/-! DEFINITION. The shared operations: octet access to the buffers (20_memory.md R50, R55), the session and
its reset action (42_rx_assembler.md R140), emission (44_tx_framer.md R181), taking an event
(60_exceptions.md R200, R211) and the Payload Processor call-out (43_dispatcher.md R166). -/

namespace Sys2Proof.Machine

/-! ## Buffers -/

/-- What an unlisted index of a buffer reads as (10_state.md R36, 42_rx_assembler.md R140). -/
def Memory.blank : Byte := 0x00

/-- The octet at index `i`: `MemRead(B, i, 1)` (00_scope.md R11). -/
def Memory.read : Memory → Nat → Byte
  | [], _ => Memory.blank
  | (a, v) :: rest, i => if a = i then v else Memory.read rest i

/-- The canonical form: indices strictly rising, no octet equal to what an unlisted index reads as. -/
def Memory.wf : Memory → Bool
  | [] => true
  | [(_, v)] => v != Memory.blank
  | (a, v) :: (b, w) :: rest => v != Memory.blank && a < b && Memory.wf ((b, w) :: rest)

/-- The cells of `rest` with `(i, v)` before them, unless `v` is what an unlisted index reads as. -/
def Memory.cons (i : Nat) (v : Byte) (rest : Memory) : Memory :=
  if v = Memory.blank then rest else (i, v) :: rest

/-- The store of octet `v` at index `i`: `MemWrite(B, i, 1, v)` (00_scope.md R11); it changes that octet
only (20_memory.md R55) and keeps the canonical form. -/
def Memory.write : Memory → Nat → Byte → Memory
  | [], i, v => Memory.cons i v []
  | (a, w) :: rest, i, v =>
    if i < a then Memory.cons i v ((a, w) :: rest)
    else if i = a then Memory.cons i v rest
    else (a, w) :: Memory.write rest i v

/-- The octets `B[base .. base + n)`, in rising order of index (00_scope.md R10). -/
def Memory.slice (m : Memory) (base : Nat) : Nat → List Byte
  | 0 => []
  | n + 1 => m.read base :: Memory.slice m (base + 1) n

/-- Stores of `bytes` at `base`, `base + 1`, …, in that order (20_memory.md R65 form 4). -/
def Memory.fill (m : Memory) (base : Nat) : List Byte → Memory
  | [] => m
  | v :: rest => Memory.fill (m.write base v) (base + 1) rest

/-- `B[i] <- 0x00` for every `i` in 0..255 (20_memory.md R65 form 5): the canonical all-zero buffer. -/
def Memory.cleared : Memory := []

/-! ## The session -/

/-- The outcome of `f` on the session; before the first INIT there is none and the operation is refused
(70_reset_and_hazards.md R231). -/
def withSession (s : State) (f : Session → Host.Outcome State Fault Refusal) :
    Host.Outcome State Fault Refusal :=
  match s.session with
  | none => .refused .noSession
  | some S => f S

/-- `s` with the session `S`. -/
def State.putSession (s : State) (S : Session) : State := { s with session := some S }

/-- `s` with `f` applied to its session, if there is one. -/
def State.mapSession (s : State) (f : Session → Session) : State := { s with session := s.session.map f }

/-- `SessionReset()`: RXB, TXB and PLB all 0x00, `receive_index` 0, nothing else, `state` least of all
(42_rx_assembler.md R140; which buffers are cleared is the spec's decision D7). -/
def sessionReset (S : Session) : Session :=
  { S with
    rxb := Memory.cleared
    txb := Memory.cleared
    plb := Memory.cleared
    receiveIndex := 0 }

/-- The outcome of `f` on the next state of `o`; a fault or a refusal stays. -/
def andThen (o : Host.Outcome State Fault Refusal) (f : State → Host.Outcome State Fault Refusal) :
    Host.Outcome State Fault Refusal :=
  match o with
  | .next s => f s
  | .fault r => .fault r
  | .refused r => .refused r

/-! ## Outputs -/

/-- `Emit(b)` (00_scope.md R11, 44_tx_framer.md R181): it always succeeds and appends. -/
def State.emit (s : State) (b : Byte) : State := { s with sink := s.sink ++ [b] }

/-- `Emit` of each octet in order (20_memory.md R60). -/
def State.emitAll (s : State) : List Byte → State
  | [] => s
  | b :: rest => State.emitAll (s.emit b) rest

/-- `raise e`: TAKING AN EVENT, the block's only kind of exception. Nothing is saved, no mode changes,
control goes nowhere (60_exceptions.md R211): the event joins the status output, and the operation that
raises it says what it does next (00_scope.md R11). There is no return from it (60_exceptions.md R212). -/
def State.raise (s : State) (e : Event) : State := { s with events := s.events ++ [e] }

/-- The value CRC16 returns to the host (40_crc.md R121). -/
def State.answer (s : State) (v : Half) : State := { s with results := s.results ++ [v] }

/-! ## The Payload Processor -/

/-- The Payload Processor's turn at its next call: the next of its script, or, when the script is used up, a
free value, numbered by the counter (43_dispatcher.md R166; log entry 4). -/
def nextTurn (s : State) : ProcTurn :=
  match s.procScript with
  | [] => .returns (Config.procAnswer s.procCount)
  | t :: _ => t

/-- The state after that turn is taken: the script or the counter has advanced. -/
def afterTurn (s : State) : State :=
  match s.procScript with
  | [] => { s with procCount := s.procCount + 1 }
  | _ :: rest => { s with procScript := rest }

/-- The writes of the Payload Processor to `PLB`, in order (43_dispatcher.md R166). -/
def Memory.applyWrites (m : Memory) : List (Fin 256 × Byte) → Memory
  | [] => m
  | (i, v) :: rest => Memory.applyWrites (m.write i.val v) rest

/-- The record of a call on the call-out port. -/
def State.logCall (s : State) (c : ProcCall) : State := { s with calls := s.calls ++ [c] }

/-- `reply_len <- Proc(n)` with session `S` (43_dispatcher.md R166, 20_memory.md R66), then `f reply_len` on
the session whose `PLB` the processor has written. A processor that breaks its contract is refused. -/
def callProcessor (n : Nat) (S : Session) (s : State)
    (f : Int → Session → State → Host.Outcome State Fault Refusal) : Host.Outcome State Fault Refusal :=
  match nextTurn s with
  | .breaks how => .refused (.processorContract how)
  | .returns a =>
    let S' := { S with plb := S.plb.applyWrites a.writes }
    f a.reply S' (((afterTurn s).logCall ⟨n, S⟩).putSession S')

end Sys2Proof.Machine
end

