-- ==== Sys2Proof/Machine/Operands.lean ====
section
/-! DEFINITION. The operand forms: the index forms of every buffer access (20_memory.md R65), the layout
inside the buffers (20_memory.md R57) and the assembly and splitting of the checksum (30_encoding.md R85). -/

namespace Sys2Proof.Machine

/-! ## The checksum's two octets -/

/-- `hi ++ lo`, high octet first (20_memory.md R52, 30_encoding.md R85). -/
def joinCrc (hi lo : Byte) : Half := hi ++ lo

/-- `crc_hi = crc[15:8]` (30_encoding.md R85). -/
def crcHi (c : Half) : Byte := c.extractLsb' 8 8

/-- `crc_lo = crc[7:0]` (30_encoding.md R85). -/
def crcLo (c : Half) : Byte := c.extractLsb' 0 8

/-! ## Reads of RXB by DISPATCH -/

/-- `source_addr = RXB[0]` (43_dispatcher.md R161). -/
def Session.frameSource (S : Session) : Byte := S.rxb.read 0

/-- `dest_addr = RXB[1]` (43_dispatcher.md R161). -/
def Session.frameDest (S : Session) : Byte := S.rxb.read 1

/-- `control = RXB[2]` (43_dispatcher.md R161). -/
def Session.frameControl (S : Session) : Byte := S.rxb.read 2

/-- The claimed checksum `RXB[length-2] ++ RXB[length-1]` (43_dispatcher.md R163). -/
def Session.claimedCrc (S : Session) : Half :=
  joinCrc (S.rxb.read (S.receiveIndex - 2)) (S.rxb.read (S.receiveIndex - 1))

/-- The octets the checksum covers, `RXB[0 .. length-2)` (43_dispatcher.md R164). -/
def Session.checkedOctets (S : Session) : List Byte := S.rxb.slice 0 (S.receiveIndex - 2)

/-- The payload, `RXB[3 .. length-2)`: `length - 5` octets (43_dispatcher.md R163). -/
def Session.framePayload (S : Session) : List Byte := S.rxb.slice cfg.headerLen (S.receiveIndex - cfg.minFrame)

/-! ## Stores -/

/-- `RXB[S.receive_index] <- v; S.receive_index <- S.receive_index + 1`: the store comes first
(20_memory.md R65 form 2). -/
def Session.storeReceived (S : Session) (v : Byte) : Session :=
  { S with
    rxb := S.rxb.write S.receiveIndex v
    receiveIndex := S.receiveIndex + 1 }

/-- `S.expected_crc <- RXB[length-2] ++ RXB[length-1]; PLB[k] <- RXB[3+k]` for `k` in `0 .. length-6`
(43_dispatcher.md R163). -/
def Session.extractFrame (S : Session) : Session :=
  { S with
    expectedCrc := some S.claimedCrc
    plb := S.plb.fill 0 S.framePayload }

/-- `S.peer_source_address <- source_addr; S.control_byte <- control` (43_dispatcher.md R165). -/
def Session.accept (S : Session) : Session :=
  { S with
    peerSourceAddress := some S.frameSource
    controlByte := some S.frameControl }

end Sys2Proof.Machine
end

