-- ==== Sys2Proof/Machine/Crc.lean ====
section
/-! DEFINITION. The CRC Engine (40_crc.md) and the command CRC16. -/

namespace Sys2Proof.Machine

/-- One of the 8 iterations: the bit shifted out of bit 0 decides whether the polynomial is xor-ed in
(40_crc.md R120). -/
def crcShift (c : Half) : Half :=
  if c.getLsbD 0 then (c >>> 1) ^^^ cfg.crcPoly else c >>> 1

/-- The 8 iterations. -/
def crcShift8 (c : Half) : Half :=
  crcShift (crcShift (crcShift (crcShift (crcShift (crcShift (crcShift (crcShift c)))))))

/-- `crc_update(c, b)` (40_crc.md R122): the octet enters bits 7:0, the spec's decision D4 (log entry 9),
then the 8 iterations. -/
def crcUpdate (c : Half) (b : Byte) : Half := crcShift8 (c ^^^ b.setWidth 16)

/-- `crc16(bytes[0..n))`: the left fold from `CRC_INIT`, no final xor (40_crc.md R120, R122). -/
def crc16 (bytes : List Byte) : Half := bytes.foldl crcUpdate cfg.crcInit

/-- The equal formulation that consumes octet `b` one bit per iteration, least significant bit first
(40_crc.md R120, 20_memory.md R53): iteration `k`. -/
def crcBitStep (b : Byte) (c : Half) (k : Nat) : Half :=
  if c.getLsbD 0 != b.getLsbD k then (c >>> 1) ^^^ cfg.crcPoly else c >>> 1

/-- The 8 iterations of that formulation, `k` from 0 to 7. -/
def crcUpdateBits (c : Half) (b : Byte) : Half := [0, 1, 2, 3, 4, 5, 6, 7].foldl (crcBitStep b) c

/-- `CRC16 bytes[0..len), len` (40_crc.md R121): defined at any time; `S` is neither read nor written. -/
def execCrc16 (bytes : List Byte) (s : State) : Host.Outcome State Fault Refusal :=
  .next (s.answer (crc16 bytes))

end Sys2Proof.Machine
end

