-- ==== Sys2Proof/Machine/Flags.lean ====
section
/-! DEFINITION. The block has no flags and no condition codes (10_state.md R32). What stands in their place:
the conditions DISPATCH tests (43_dispatcher.md R162, R164) and the codes of the status port
(60_exceptions.md R205, R206). -/

namespace Sys2Proof.Machine

/-- The address and control filter: `dest_addr = own_address` and `control = 0x13` (43_dispatcher.md R162). -/
def Session.passesFilter (S : Session) : Bool :=
  S.frameDest == S.ownAddress && S.frameControl == cfg.ctrlCmd

/-- Verification is enabled and the computed checksum differs from `expected_crc`
(43_dispatcher.md R164); read after `expected_crc` is written (R163). -/
def Session.checksumFails (S : Session) : Bool :=
  S.crcCheckEnable && some (crc16 S.checkedOctets) != S.expectedCrc

/-- The codes of the status port: 0 is no event (92_eei_decisions.md D29). -/
def statusCode : Option Event → Nat
  | none => 0
  | some .crcError => 1
  | some (.lenError _) => 2

end Sys2Proof.Machine
end

