-- ==== Sys2Proof/Machine/Codec.lean ====
section
/-! DEFINITION. The Byte Transparency Codec (41_codec.md) and the command ENCBYTE. -/

namespace Sys2Proof.Machine

/-- `encode(b)` as a pure function (41_codec.md R130). -/
def encodeByte (b : Byte) : List Byte :=
  if b = cfg.flag ∨ b = cfg.esc then [cfg.esc, b ^^^ cfg.escMask] else [b]

/-- `encode(s)`: the concatenation of `encode` of each octet in order (41_codec.md R130). -/
def encodeBytes : List Byte → List Byte
  | [] => []
  | b :: rest => encodeByte b ++ encodeBytes rest

/-- `unescape(x) = x xor 0x20` (41_codec.md R132). -/
def unescape (x : Byte) : Byte := x ^^^ cfg.escMask

/-- `decode(w)`: each pair `0x7D, x` becomes `unescape(x)`, every other octet is kept (41_codec.md R133). -/
def decodeBytes : List Byte → List Byte
  | [] => []
  | [b] => [b]
  | b :: x :: rest => if b = cfg.esc then unescape x :: decodeBytes rest else b :: decodeBytes (x :: rest)

/-- `ENCBYTE b` (41_codec.md R131): defined at any time; `S` is neither read nor written. -/
def execEncbyte (b : Byte) (s : State) : Host.Outcome State Fault Refusal :=
  .next (s.emitAll (encodeByte b))

end Sys2Proof.Machine
end

