-- ==== Sys2Proof/Machine/Transmit.lean ====
section
/-! DEFINITION. The Transmit Framer (44_tx_framer.md): TXFRAME and TXRAW. -/

namespace Sys2Proof.Machine

/-- `TXB` with header and payload built: `own, peer, 0x13, payload` from index 0 (44_tx_framer.md R182). -/
def buildHeader (txb : Memory) (own peer : Byte) (payload : List Byte) : Memory :=
  ((((txb.write 0 own).write 1 peer).write 2 cfg.ctrlReply).fill cfg.headerLen payload)

/-- `TXB` with the whole body: the checksum over `TXB[0 .. 3+len)` at `3+len` and `4+len`, high octet first
(44_tx_framer.md R182). -/
def buildBody (txb : Memory) (own peer : Byte) (payload : List Byte) : Memory :=
  let m := buildHeader txb own peer payload
  let crc := crc16 (m.slice 0 (cfg.headerLen + payload.length))
  (m.write (cfg.headerLen + payload.length) (crcHi crc)).write (cfg.headerLen + payload.length + 1) (crcLo crc)

/-- The octets of a frame on the wire: FLAG, the escaped body, FLAG (30_encoding.md R80, 44_tx_framer.md R183). -/
def wireFrame (body : List Byte) : List Byte := cfg.flag :: (encodeBytes body ++ [cfg.flag])

/-- `TXFRAME(payload[0..len), len)` in full (44_tx_framer.md R184): the length check first (R180), then the
destination, refused while it has no value (R186), then the body in `TXB` (R182) and its emission (R183). -/
def transmitFrame (payload : List Byte) (S : Session) (s : State) : Host.Outcome State Fault Refusal :=
  if cfg.txMaxPayload < payload.length then .next (s.raise (.lenError payload.length))
  else
    match S.peerSourceAddress with
    | none => .refused .noPeer
    | some peer =>
      let txb := buildBody S.txb S.ownAddress peer payload
      .next ((s.putSession { S with txb := txb }).emitAll
        (wireFrame (txb.slice 0 (cfg.minFrame + payload.length))))

/-- The command `TXFRAME` (44_tx_framer.md R184). -/
def execTxframe (payload : List Byte) (s : State) : Host.Outcome State Fault Refusal :=
  withSession s fun S => transmitFrame payload S s

/-- The body of a raw frame: payload, then its checksum, high octet first (30_encoding.md R82). -/
def rawBody (payload : List Byte) : List Byte :=
  payload ++ [crcHi (crc16 payload), crcLo (crc16 payload)]

/-- The command `TXRAW` (44_tx_framer.md R187): it needs a session to exist (70_reset_and_hazards.md R231) and
reads and writes none of it. -/
def execTxraw (payload : List Byte) (s : State) : Host.Outcome State Fault Refusal :=
  withSession s fun _ =>
    if cfg.rawMaxPayload < payload.length then .next (s.raise (.lenError payload.length))
    else .next (s.emitAll (wireFrame (rawBody payload)))

end Sys2Proof.Machine
end

