-- ==== Sys2Proof/Machine/Dispatcher.lean ====
section
/-! DEFINITION. The Frame Dispatcher and validator (43_dispatcher.md): DISPATCH. -/

namespace Sys2Proof.Machine

/-- The reply decision with `reply_len` (43_dispatcher.md R167): no reply at 0 or below, LenError above 251
without reading `PLB`, else `TXFRAME(PLB[0 .. reply_len), reply_len)`. -/
def sendReply (replyLen : Int) (S : Session) (s : State) : Host.Outcome State Fault Refusal :=
  if replyLen ≤ 0 then .next s
  else if (cfg.txMaxPayload : Int) < replyLen then .next (s.raise (.lenError replyLen.toNat))
  else transmitFrame (S.plb.slice 0 replyLen.toNat) S s

/-- `DISPATCH(RXB, length)` in full, with `length = S.receive_index` (43_dispatcher.md R168); a length outside
5..256 breaks its contract and is refused (R160). -/
def dispatchFrame (S : Session) (s : State) : Host.Outcome State Fault Refusal :=
  if S.receiveIndex < cfg.minFrame ∨ cfg.capacity < S.receiveIndex then
    .refused (.dispatchLength S.receiveIndex)
  else if !S.passesFilter then .next s
  else if S.extractFrame.checksumFails then .next ((s.putSession S.extractFrame).raise .crcError)
  else callProcessor (S.receiveIndex - cfg.minFrame) S.extractFrame.accept s sendReply

/-- `DISPATCH` of the frame in `RXB` whose header word is `source, dest, control` (30_encoding.md R89). The
word is formed from `RXB[0..3)`; a header that is not the one in `RXB` is not selected (log entry 6). -/
def execDispatch (source dest control : Byte) (s : State) : Host.Outcome State Fault Refusal :=
  withSession s fun S =>
    if S.frameSource = source ∧ S.frameDest = dest ∧ S.frameControl = control then dispatchFrame S s
    else .refused .notSelected

end Sys2Proof.Machine
end

