-- ==== Sys2Proof/Machine/Receive.lean ====
section
/-! DEFINITION. The Receive Assembler (42_rx_assembler.md): the ten micro-operations, each with its "Selected
when" condition, and the command RXBYTE that selects one of them. A micro-operation run where it is not
selected has no meaning in the spec and is refused (log entry 6). -/

namespace Sys2Proof.Machine

/-- The outcome of a micro-operation on the session when its condition holds. -/
def whenSelected (s : State) (cond : Session → Bool) (f : Session → Host.Outcome State Fault Refusal) :
    Host.Outcome State Fault Refusal :=
  withSession s fun S => if cond S then f S else .refused .notSelected

/-- `SessionReset(); S.state <- ReceivingData` (42_rx_assembler.md R142, R146, R147, R149, R151). -/
def restartReceiving (S : Session) : Session := { sessionReset S with state := .receivingData }

/-- `RX.START` (42_rx_assembler.md R142). -/
def execRxStart (s : State) : Host.Outcome State Fault Refusal :=
  whenSelected s (fun S => S.state = .awaitingStart) fun S => .next (s.putSession (restartReceiving S))

/-- `RX.IDLE` (42_rx_assembler.md R143): nothing. -/
def execRxIdle (b : Byte) (s : State) : Host.Outcome State Fault Refusal :=
  whenSelected s (fun S => S.state = .awaitingStart ∧ b ≠ cfg.flag) fun _ => .next s

/-- `RX.ESC` (42_rx_assembler.md R144): at any index. -/
def execRxEsc (s : State) : Host.Outcome State Fault Refusal :=
  whenSelected s (fun S => S.state = .receivingData) fun S =>
    .next (s.putSession { S with state := .processingEscape })

/-- `RX.FLAG.IDLE` (42_rx_assembler.md R145): nothing. -/
def execRxFlagIdle (s : State) : Host.Outcome State Fault Refusal :=
  whenSelected s (fun S => S.state = .receivingData ∧ S.receiveIndex = 0) fun _ => .next s

/-- `RX.FLAG.DISPATCH` (42_rx_assembler.md R146): DISPATCH runs to completion first, then the reset. -/
def execRxFlagDispatch (s : State) : Host.Outcome State Fault Refusal :=
  whenSelected s (fun S => S.state = .receivingData ∧ cfg.dispatchAbove < S.receiveIndex) fun S =>
    andThen (dispatchFrame S s) fun s' => .next (s'.mapSession restartReceiving)

/-- `RX.FLAG.SHORT` (42_rx_assembler.md R147). -/
def execRxFlagShort (s : State) : Host.Outcome State Fault Refusal :=
  whenSelected s
    (fun S => S.state = .receivingData ∧ 0 < S.receiveIndex ∧ S.receiveIndex ≤ cfg.dispatchAbove)
    fun S => .next (s.putSession (restartReceiving S))

/-- `RX.DATA(b)` (42_rx_assembler.md R148). -/
def execRxData (b : Byte) (s : State) : Host.Outcome State Fault Refusal :=
  whenSelected s
    (fun S => S.state = .receivingData ∧ b ≠ cfg.flag ∧ b ≠ cfg.esc ∧ S.receiveIndex < cfg.capacity)
    fun S => .next (s.putSession (S.storeReceived b))

/-- `RX.OVERRUN` (42_rx_assembler.md R149): the octet is dropped. -/
def execRxOverrun (b : Byte) (s : State) : Host.Outcome State Fault Refusal :=
  whenSelected s
    (fun S => S.state = .receivingData ∧ b ≠ cfg.flag ∧ b ≠ cfg.esc ∧ S.receiveIndex = cfg.capacity)
    fun S => .next (s.putSession (restartReceiving S))

/-- `RX.UNESC(b)` (42_rx_assembler.md R150): any octet, FLAG and ESC included. -/
def execRxUnesc (b : Byte) (s : State) : Host.Outcome State Fault Refusal :=
  whenSelected s (fun S => S.state = .processingEscape ∧ S.receiveIndex < cfg.capacity) fun S =>
    .next (s.putSession { S.storeReceived (unescape b) with state := .receivingData })

/-- `RX.UNESC.OVERRUN` (42_rx_assembler.md R151): any octet, dropped. -/
def execRxUnescOverrun (_b : Byte) (s : State) : Host.Outcome State Fault Refusal :=
  whenSelected s (fun S => S.state = .processingEscape ∧ S.receiveIndex = cfg.capacity) fun S =>
    .next (s.putSession (restartReceiving S))

/-- `RXBYTE b` (42_rx_assembler.md R141): exactly one micro-operation runs. -/
def execRxbyte (b : Byte) (s : State) : Host.Outcome State Fault Refusal :=
  withSession s fun S =>
    match S.state with
    | .awaitingStart => if b = cfg.flag then execRxStart s else execRxIdle b s
    | .receivingData =>
      if b = cfg.esc then execRxEsc s
      else if b = cfg.flag ∧ S.receiveIndex = 0 then execRxFlagIdle s
      else if b = cfg.flag ∧ cfg.dispatchAbove < S.receiveIndex then execRxFlagDispatch s
      else if b = cfg.flag then execRxFlagShort s
      else if S.receiveIndex < cfg.capacity then execRxData b s
      else execRxOverrun b s
    | .processingEscape =>
      if S.receiveIndex < cfg.capacity then execRxUnesc b s else execRxUnescOverrun b s

end Sys2Proof.Machine
end

