-- ==== Sys2Proof/Machine/System.lean ====
section
/-! DEFINITION. Reset and initialisation: the command INIT (70_reset_and_hazards.md R230). -/

namespace Sys2Proof.Machine

/-- The session right after `INIT(own_addr, crc_en)` (10_state.md R36): nothing of an earlier session
remains. -/
def initialSession (ownAddr : Byte) (crcEn : Bool) : Session where
  ownAddress := ownAddr
  crcCheckEnable := crcEn
  peerSourceAddress := none
  controlByte := none
  receiveIndex := 0
  expectedCrc := none
  state := .awaitingStart
  rxb := Memory.cleared
  txb := Memory.cleared
  plb := Memory.cleared

/-- `INIT own_addr, crc_en` (70_reset_and_hazards.md R230): at any time between commands. -/
def execInit (ownAddr : Byte) (crcEn : Bool) (s : State) : Host.Outcome State Fault Refusal :=
  .next (s.putSession (initialSession ownAddr crcEn))

end Sys2Proof.Machine
end

