-- ==== Sys2Proof/Machine/Dispatch.lean ====
section
/-! DEFINITION. One arm per operation. -/

namespace Sys2Proof.Machine

/-- What an operation does. -/
def exec (i : Instr) (s : State) : Host.Outcome State Fault Refusal :=
  match i with
  | .rxStart => Sys2Proof.Machine.execRxStart s
  | .rxIdle b => Sys2Proof.Machine.execRxIdle b s
  | .rxEsc => Sys2Proof.Machine.execRxEsc s
  | .rxFlagIdle => Sys2Proof.Machine.execRxFlagIdle s
  | .rxFlagDispatch => Sys2Proof.Machine.execRxFlagDispatch s
  | .rxFlagShort => Sys2Proof.Machine.execRxFlagShort s
  | .rxData b => Sys2Proof.Machine.execRxData b s
  | .rxOverrun b => Sys2Proof.Machine.execRxOverrun b s
  | .rxUnesc b => Sys2Proof.Machine.execRxUnesc b s
  | .rxUnescOverrun b => Sys2Proof.Machine.execRxUnescOverrun b s
  | .dispatch source dest control => Sys2Proof.Machine.execDispatch source dest control s
  | .init ownAddr crcEn => Sys2Proof.Machine.execInit ownAddr crcEn s
  | .rxbyte b => Sys2Proof.Machine.execRxbyte b s
  | .txframe payload => Sys2Proof.Machine.execTxframe payload s
  | .txraw payload => Sys2Proof.Machine.execTxraw payload s
  | .crc16 bytes => Sys2Proof.Machine.execCrc16 bytes s
  | .encbyte b => Sys2Proof.Machine.execEncbyte b s

end Sys2Proof.Machine
end

