-- ==== Sys2Proof/Machine/Fetch.lean ====
section
/-! DEFINITION. How the next operation reaches the block: the host's next command is decoded (there is no
program and no fetch, 10_state.md R30), and how the host of the checks places a table word. -/

namespace Sys2Proof.Machine

/-- The command `RXBYTE b` on the command port (30_encoding.md R90). -/
def receiveCommand (b : Byte) : Command := ⟨1, [b]⟩

/-- A command no operation has (30_encoding.md R91), for a word that stands for none. -/
def reservedCommand : Command := ⟨7, []⟩

/-- `s` with `c` as the host's next command. -/
def State.issue (s : State) (c : Command) : State := { s with hostCommands := c :: s.hostCommands }

/-- The session, or the one INIT makes where there is none yet (log entry 11). -/
def State.sessionOrInitial (s : State) : Session :=
  match s.session with
  | some S => S
  | none => initialSession 0x00 true

/-- `s` about to run the operation of a word (log entry 11). A command becomes the host's next command. A
receive word `state ++ b` (30_encoding.md R88) sets the session's `state` and issues `RXBYTE b`. A frame
header (R89) is stored at the start of `RXB` as a 6-octet frame of otherwise zeros, the shortest that is
dispatched (42_rx_assembler.md R146), and the closing FLAG is issued. -/
def State.place (s : State) : Word → State
  | .cmd c => s.issue c
  | .rxw w =>
    match RxState.ofCode (w.extractLsb' 8 2) with
    | some st =>
      (s.putSession { s.sessionOrInitial with state := st }).issue (receiveCommand (w.extractLsb' 0 8))
    | none => s.issue reservedCommand
  | .framehdr w =>
    (s.putSession
      { s.sessionOrInitial with
        state := .receivingData
        receiveIndex := cfg.dispatchAbove + 1
        rxb := Memory.cleared.fill 0 [w.extractLsb' 16 8, w.extractLsb' 8 8, w.extractLsb' 0 8] }).issue
      (receiveCommand cfg.flag)

end Sys2Proof.Machine
end

