-- ==== Sys2Proof/Machine/Step.lean ====
section
/-! DEFINITION. One step: the host's next command, with everything it calls, as one atomic operation
(92_eei_decisions.md D1, 42_rx_assembler.md R141). -/

namespace Sys2Proof.Machine

/-- One step. With no command the block is idle and keeps all of its state (60_exceptions.md R217); a command
that stands for no operation is refused by name (30_encoding.md R91). -/
def step (s : State) : Host.Outcome State Fault Refusal :=
  match s.hostCommands with
  | [] => .next s
  | c :: rest =>
    match decodeCommand c with
    | .ok i => exec i { s with hostCommands := rest }
    | .error why => .refused (.undecodable why)

/-- `s` with a word of opcode_table.json placed so that the next step runs its operation (log entry 11). -/
def State.withFetchWord (s : State) (nbits w : Nat) : State :=
  match tableWord nbits w with
  | some x => s.place x
  | none => s.issue reservedCommand

end Sys2Proof.Machine
end

