-- ==== Sys2Proof/Safety.lean ====
section
/-! DEFINITION. What a safe run keeps (10_state.md R35) and the words the statements use: the selecting
conditions of the micro-operations, a session after SessionReset, octets fed by the host. -/

namespace Sys2Proof.Machine

/-! ## The invariant -/

/-- What holds of the session after INIT and after every completed command. (i), (iii), (iv) are those of
10_state.md R35; (ii), the three values of `state`, is the type `RxState`; the rest are the canonical form of
the buffers (log entry 13) and what the rules named beside each field say. -/
structure Session.Inv (S : Session) : Prop where
  /-- R35 (i). -/
  index_le : S.receiveIndex ≤ cfg.capacity
  /-- R35 (iii). -/
  awaiting_index : S.state = .awaitingStart → S.receiveIndex = 0
  /-- R35 (iv). -/
  rxb_blank : ∀ i, S.receiveIndex ≤ i → S.rxb.read i = 0x00
  /-- `PLB` is all zero between commands (43_dispatcher.md R163). -/
  plb_blank : ∀ i, S.plb.read i = 0x00
  /-- No octet of `TXB` lies outside 0..255 (20_memory.md R56). -/
  txb_within : ∀ i, cfg.txbCapacity ≤ i → S.txb.read i = 0x00
  /-- `control_byte` is 0x13 after any acceptance (10_state.md R23). -/
  control_value : ∀ c, S.controlByte = some c → c = cfg.ctrlCmd
  /-- Both are written at acceptance and by nothing else but INIT (43_dispatcher.md R165). -/
  peer_with_control : S.peerSourceAddress.isSome = S.controlByte.isSome
  /-- `expected_crc` is written before acceptance (43_dispatcher.md R163). -/
  peer_after_crc : S.peerSourceAddress.isSome = true → S.expectedCrc.isSome = true
  rxb_wf : S.rxb.wf = true
  txb_wf : S.txb.wf = true
  plb_wf : S.plb.wf = true

/-- The session, where there is one, keeps its invariant. -/
def State.Inv (s : State) : Prop := ∀ S, s.session = some S → S.Inv

/-! ## Words for the statements -/

/-- The "Selected when" line of each micro-operation (42_rx_assembler.md R142 to R151), for a received octet
`b`; no other operation is one of the ten. -/
def selectedBy (S : Session) (b : Byte) : Instr → Prop
  | .rxStart => S.state = .awaitingStart ∧ b = 0x7E
  | .rxIdle x => x = b ∧ S.state = .awaitingStart ∧ b ≠ 0x7E
  | .rxEsc => S.state = .receivingData ∧ b = 0x7D
  | .rxFlagIdle => S.state = .receivingData ∧ b = 0x7E ∧ S.receiveIndex = 0
  | .rxFlagDispatch => S.state = .receivingData ∧ b = 0x7E ∧ 5 < S.receiveIndex
  | .rxFlagShort => S.state = .receivingData ∧ b = 0x7E ∧ 0 < S.receiveIndex ∧ S.receiveIndex ≤ 5
  | .rxData x => x = b ∧ S.state = .receivingData ∧ b ≠ 0x7D ∧ b ≠ 0x7E ∧ S.receiveIndex < 256
  | .rxOverrun x => x = b ∧ S.state = .receivingData ∧ b ≠ 0x7D ∧ b ≠ 0x7E ∧ S.receiveIndex = 256
  | .rxUnesc x => x = b ∧ S.state = .processingEscape ∧ S.receiveIndex < 256
  | .rxUnescOverrun x => x = b ∧ S.state = .processingEscape ∧ S.receiveIndex = 256
  | .dispatch _ _ _ => False
  | .init _ _ => False
  | .rxbyte _ => False
  | .txframe _ => False
  | .txraw _ => False
  | .crc16 _ => False
  | .encbyte _ => False

/-- The ten micro-operations (42_rx_assembler.md R142 to R151). -/
def isReceive : Instr → Bool
  | .rxStart => true
  | .rxIdle _ => true
  | .rxEsc => true
  | .rxFlagIdle => true
  | .rxFlagDispatch => true
  | .rxFlagShort => true
  | .rxData _ => true
  | .rxOverrun _ => true
  | .rxUnesc _ => true
  | .rxUnescOverrun _ => true
  | .dispatch _ _ _ => false
  | .init _ _ => false
  | .rxbyte _ => false
  | .txframe _ => false
  | .txraw _ => false
  | .crc16 _ => false
  | .encbyte _ => false

/-- `T` is `S` after `SessionReset()` with `state` ReceivingData: every octet of the three buffers reads 0x00,
`receive_index` is 0, every other field is as in `S` (42_rx_assembler.md R140). -/
def restartOf (S T : Session) : Prop :=
  T = { S with
        rxb := T.rxb
        txb := T.txb
        plb := T.plb
        receiveIndex := 0
        state := .receivingData } ∧
    ∀ a, T.rxb.read a = 0x00 ∧ T.txb.read a = 0x00 ∧ T.plb.read a = 0x00

/-- `s` with the host about to issue one RXBYTE per octet, left to right, and nothing else
(30_encoding.md R93, `RX`). -/
def State.feed (s : State) (octets : List Byte) : State :=
  { s with hostCommands := octets.map receiveCommand }

/-- A session at a frame boundary: idle, or between frames (44_tx_framer.md R189). -/
def Session.atBoundary (S : Session) : Prop :=
  S.state = .awaitingStart ∨ (S.state = .receivingData ∧ S.receiveIndex = 0)

/-- An addressed frame body with checksum `crc` (30_encoding.md R81). -/
def addressedBody (source dest : Byte) (payload : List Byte) (crc : Half) : List Byte :=
  [source, dest, 0x13] ++ payload ++ [crc.extractLsb' 8 8, crc.extractLsb' 0 8]

/-- `s` without the two session fields no rule reads before writing them (10_state.md R23, R28). -/
def Session.forgetUnread (S : Session) : Session := { S with controlByte := none, expectedCrc := none }

end Sys2Proof.Machine
end

