-- ==== Sys2Proof/Certificates/Slice0/Obligations.lean ====
section
/-! DEFINITION. The statements for the provers, from the numbered rules of spec/. An equation
`exec i s = .next { s with … }` says the operation completes, what it writes, and that every field not named
is unchanged. Where a rule carries a decision mark `D<n>` of 92_eei_decisions.md the docstring names it. -/

open Sys2Proof Sys2Proof.Machine

/-! ## Encoding -/

/-- Words written out from 30_encoding.md R88 (state code, then octet), R89 and R90 decode to their operations;
the codes are the spec's decisions D2 and D3, the operand octets the model's (log entry 7). -/
def Obligations.SpecWordsDecode : Prop :=
  decodeRx 0b0001111110 0 = .ok .rxStart ∧
  decodeRx 0b0001000001 0 = .ok (.rxIdle 0x41) ∧
  decodeRx 0b0101111101 256 = .ok .rxEsc ∧
  decodeRx 0b0101111110 0 = .ok .rxFlagIdle ∧
  decodeRx 0b0101111110 6 = .ok .rxFlagDispatch ∧
  decodeRx 0b0101111110 5 = .ok .rxFlagShort ∧
  decodeRx 0b0101000001 255 = .ok (.rxData 0x41) ∧
  decodeRx 0b0101000001 256 = .ok (.rxOverrun 0x41) ∧
  decodeRx 0b1001011110 255 = .ok (.rxUnesc 0x5E) ∧
  decodeRx 0b1001111110 256 = .ok (.rxUnescOverrun 0x7E) ∧
  decodeHeader 0b000000100000000100010011 = .ok (.dispatch 0x02 0x01 0x13) ∧
  decodeCommand ⟨0b000, [0x01, 0x00]⟩ = .ok (.init 0x01 false) ∧
  decodeCommand ⟨0b001, [0x7E]⟩ = .ok (.rxbyte 0x7E) ∧
  decodeCommand ⟨0b010, [0x01, 0xAA]⟩ = .ok (.txframe [0x01, 0xAA]) ∧
  decodeCommand ⟨0b011, []⟩ = .ok (.txraw []) ∧
  decodeCommand ⟨0b100, [0x41]⟩ = .ok (.crc16 [0x41]) ∧
  decodeCommand ⟨0b101, [0x7D]⟩ = .ok (.encbyte 0x7D)

/-- DECODE AND ENCODE AGREE, for every operation and every operand: decoding the word of a well-formed
operation, at an index its row covers, gives it back (30_encoding.md R88, R89, R90). -/
def Obligations.DecodeOfEncodeIsIdentity : Prop :=
  ∀ (i : Instr) (index : Nat), i.wf = true → i.indexCondition index = true →
    decode index (encode i) = .ok i

/-- A receive word decodes to an operation exactly when it is that operation's word, the octet is one its row
admits and the index meets its row's condition: no word of R88's table is read as a neighbour's. -/
def Obligations.ReceiveWordDecodesExactly : Prop :=
  ∀ (w : BitVec 10) (index : Nat) (i : Instr),
    decodeRx w index = .ok i ↔ encode i = .rxw w ∧ i.wf = true ∧ i.indexCondition index = true

/-- The reserved encodings of 30_encoding.md R91: op codes 6 and 7 (decision D2) have no meaning and the step
refuses them; state code 0b11 (decision D3) and a header whose control octet is not 0x13 stand for no
operation. -/
def Obligations.ReservedWordsAreRefused : Prop :=
  (∀ (s : State) (c : Command) (rest : List Command),
    s.hostCommands = c :: rest → c.op = 6 ∨ c.op = 7 →
      step s = .refused (.undecodable (.reservedOp c.op))) ∧
  (∀ (b : Byte) (index : Nat), decodeRx (0b11#2 ++ b) index = .error .stateCode) ∧
  (∀ source dest control : Byte, control ≠ 0x13 →
    decodeHeader (source ++ dest ++ control) = .error .headerIgnored)

/-- A STEP RUNS THE DECODED OPERATION: the host's next command is taken and decoded, and the step is `exec` of
the operation; a command that stands for no operation is refused by name; with no command the block is idle
and keeps everything. The list of host commands is the model's (log entry 1). -/
def Obligations.StepRunsDecodedCommand : Prop :=
  (∀ (s : State) (c : Command) (rest : List Command) (i : Instr),
    s.hostCommands = c :: rest → decodeCommand c = .ok i →
      step s = exec i { s with hostCommands := rest }) ∧
  (∀ (s : State) (c : Command) (rest : List Command) (why : Reject),
    s.hostCommands = c :: rest → decodeCommand c = .error why →
      step s = .refused (.undecodable why)) ∧
  (∀ s : State, s.hostCommands = [] → step s = .next s)

/-! ## CRC Engine -/

/-- The equal formulation of 40_crc.md R120: consuming an octet one bit per iteration, least significant bit
first, gives what xor-ing it into bits 7:0 first gives (how the octet enters is the spec's decision D4). -/
def Obligations.CrcFormulationsAgree : Prop :=
  ∀ (c : Half) (b : Byte), crcUpdateBits c b = crcUpdate c b

/-- `crc16` is the left fold of `crc_update` from 0xFFFF and splits at any point (40_crc.md R122). -/
def Obligations.CrcFoldSplits : Prop :=
  crc16 [] = 0xFFFF ∧
  (∀ b : Byte, crc16 [b] = crcUpdate 0xFFFF b) ∧
  ∀ a b : List Byte, crc16 (a ++ b) = b.foldl crcUpdate (crc16 a)

/-- Values the spec derives (95_test_vectors.md V-CRC-1 to V-CRC-18; all rest on decision D4). -/
def Obligations.CrcDerivedVectors : Prop :=
  crc16 [] = 0xFFFF ∧ crc16 [0x00] = 0x0F87 ∧ crc16 [0xFF] = 0x00FF ∧ crc16 [0x01] = 0x1E0E ∧
  crc16 [0x7E] = 0x957E ∧ crc16 [0x31, 0x32, 0x33, 0x34, 0x35, 0x36, 0x37, 0x38, 0x39] = 0x6F91 ∧
  crc16 [0x02, 0x01, 0x13, 0x41] = 0x8CFF ∧ crc16 [0x41, 0x42] = 0xCE10 ∧ crc16 [0x42, 0x41] = 0xD6E3 ∧
  crc16 [0xFF, 0xFF] = 0x0000

/-- `CRC16` returns the checksum to the host, at any time and for any length, and does nothing else: `S` is
neither read nor written, nothing is emitted, nothing is called (40_crc.md R121; that it is a command is
decision D2). -/
def Obligations.Crc16ReturnsChecksum : Prop :=
  ∀ (bytes : List Byte) (s : State),
    exec (.crc16 bytes) s = .next { s with results := s.results ++ [bytes.foldl crcUpdate 0xFFFF] }

/-! ## Byte Transparency Codec -/

/-- `ENCBYTE` (41_codec.md R131; that it is a command is decision D2), defined at any time, runs `encode_byte`
(R130): it emits ESC and the masked octet for the two reserved octets and the octet itself otherwise, reading and
writing no field of `S`; a sequence is encoded octet by octet, in order. -/
def Obligations.EncodeByteEmits : Prop :=
  (∀ (b : Byte) (s : State),
    exec (.encbyte b) s =
      .next { s with sink := s.sink ++ (if b = 0x7E ∨ b = 0x7D then [0x7D, b ^^^ 0x20] else [b]) }) ∧
  encodeBytes [] = [] ∧
  ∀ (b : Byte) (rest : List Byte),
    encodeBytes (b :: rest) =
      (if b = 0x7E ∨ b = 0x7D then [0x7D, b ^^^ 0x20] else [b]) ++ encodeBytes rest

/-- `unescape` is xor 0x20 on any octet and its own inverse (41_codec.md R132). -/
def Obligations.UnescapeUndoesItself : Prop :=
  ∀ x : Byte, unescape x = x ^^^ 0x20 ∧ unescape (unescape x) = x

/-- The transparency guarantee (41_codec.md R134): an escaped sequence holds no FLAG, and an ESC in it stands
only before 0x5E or 0x5D. -/
def Obligations.EscapedSequenceIsTransparent : Prop :=
  ∀ bytes : List Byte,
    (0x7E : Byte) ∉ encodeBytes bytes ∧
    ∀ k, (encodeBytes bytes)[k]? = some (0x7D : Byte) →
      (encodeBytes bytes)[k + 1]? = some (0x5E : Byte) ∨ (encodeBytes bytes)[k + 1]? = some (0x5D : Byte)

/-- The round-trip law, unrestricted (41_codec.md R133, 90_conflicts.md C4). -/
def Obligations.UnescapeInvertsEscape : Prop :=
  ∀ bytes : List Byte, decodeBytes (encodeBytes bytes) = bytes

/-! ## Receive Assembler -/

/-- Exactly one micro-operation is selected for every state, octet and index in 0..256; the receive word
decodes to it; and `RXBYTE` is that micro-operation (42_rx_assembler.md R141, R152; 30_encoding.md R88). -/
def Obligations.RxbyteRunsTheOneSelected : Prop :=
  ∀ (S : Session) (b : Byte), S.receiveIndex ≤ 256 →
    ∃ i : Instr, selectedBy S b i ∧ (∀ j, selectedBy S b j → j = i) ∧
      decodeRx (rxWord S.state b) S.receiveIndex = .ok i ∧
      ∀ s : State, s.session = some S → exec (.rxbyte b) s = exec i s

/-- A micro-operation that no received octet selects in this session, by its state, its index or its own octet
("Selected when", 42_rx_assembler.md R142 to R151), is refused by name, and so is DISPATCH of a header that is
not the one in RXB. This is the model's choice (log entry 6); the rules give these operations an effect only
where they are selected. -/
def Obligations.UnselectedOperationIsRefused : Prop :=
  ∀ (s : State) (S : Session), s.session = some S →
    (∀ i : Instr, isReceive i = true → (∀ b, ¬ selectedBy S b i) → exec i s = .refused .notSelected) ∧
    (∀ source dest control, (source, dest, control) ≠ (S.rxb.read 0, S.rxb.read 1, S.rxb.read 2) →
      exec (.dispatch source dest control) s = .refused .notSelected)

/-- `RX.START` (42_rx_assembler.md R142); which buffers SessionReset clears is decision D7. -/
def Obligations.StartResetsAndReceives : Prop :=
  ∀ (s : State) (S : Session), s.session = some S → S.state = .awaitingStart →
    ∃ T, exec .rxStart s = .next { s with session := some T } ∧ restartOf S T

/-- `RX.IDLE` (42_rx_assembler.md R143) and `RX.FLAG.IDLE` (R145): nothing changes. -/
def Obligations.IdleOctetsChangeNothing : Prop :=
  (∀ (s : State) (S : Session) (b : Byte), s.session = some S → S.state = .awaitingStart → b ≠ 0x7E →
    exec (.rxIdle b) s = .next s) ∧
  ∀ (s : State) (S : Session), s.session = some S → S.state = .receivingData → S.receiveIndex = 0 →
    exec .rxFlagIdle s = .next s

/-- `RX.ESC` (42_rx_assembler.md R144): at any index, only `state` changes. -/
def Obligations.EscapeArmsLookahead : Prop :=
  ∀ (s : State) (S : Session), s.session = some S → S.state = .receivingData →
    exec .rxEsc s = .next { s with session := some { S with state := .processingEscape } }

/-- `RX.FLAG.SHORT` (42_rx_assembler.md R147): a body of 1 to 5 octets is discarded silently. -/
def Obligations.ShortFrameIsDropped : Prop :=
  ∀ (s : State) (S : Session), s.session = some S → S.state = .receivingData →
    0 < S.receiveIndex → S.receiveIndex ≤ 5 →
    ∃ T, exec .rxFlagShort s = .next { s with session := some T } ∧ restartOf S T

/-- `RX.DATA` (42_rx_assembler.md R148): the octet is stored at the index, every other octet of RXB reads as
before, and the index is incremented. -/
def Obligations.DataOctetIsStored : Prop :=
  ∀ (s : State) (S : Session) (b : Byte), s.session = some S → S.state = .receivingData →
    b ≠ 0x7D → b ≠ 0x7E → S.receiveIndex < 256 → S.rxb.wf = true →
    ∃ rxb, exec (.rxData b) s =
        .next { s with session := some { S with rxb := rxb, receiveIndex := S.receiveIndex + 1 } } ∧
      rxb.read S.receiveIndex = b ∧ ∀ a, a ≠ S.receiveIndex → rxb.read a = S.rxb.read a

/-- `RX.UNESC` (42_rx_assembler.md R150): any octet, FLAG and ESC included, is unmasked and stored. -/
def Obligations.EscapedOctetIsUnmaskedAndStored : Prop :=
  ∀ (s : State) (S : Session) (b : Byte), s.session = some S → S.state = .processingEscape →
    S.receiveIndex < 256 → S.rxb.wf = true →
    ∃ rxb, exec (.rxUnesc b) s =
        .next { s with session := some { S with
          rxb := rxb, receiveIndex := S.receiveIndex + 1, state := .receivingData } } ∧
      rxb.read S.receiveIndex = b ^^^ 0x20 ∧ ∀ a, a ≠ S.receiveIndex → rxb.read a = S.rxb.read a

/-- `RX.OVERRUN` (42_rx_assembler.md R149) and `RX.UNESC.OVERRUN` (R151): the frame is discarded silently, the
octet dropped, and the state is ReceivingData (decision D6). -/
def Obligations.OverrunDiscardsFrame : Prop :=
  (∀ (s : State) (S : Session) (b : Byte), s.session = some S → S.state = .receivingData →
    b ≠ 0x7D → b ≠ 0x7E → S.receiveIndex = 256 →
    ∃ T, exec (.rxOverrun b) s = .next { s with session := some T } ∧ restartOf S T) ∧
  ∀ (s : State) (S : Session) (b : Byte), s.session = some S → S.state = .processingEscape →
    S.receiveIndex = 256 →
    ∃ T, exec (.rxUnescOverrun b) s = .next { s with session := some T } ∧ restartOf S T

/-- `RX.FLAG.DISPATCH` (42_rx_assembler.md R146, decisions D5, D30): DISPATCH of the frame in RXB runs to
completion, and then, whatever it did, SessionReset and ReceivingData follow; if DISPATCH has no meaning,
neither has this. -/
def Obligations.ClosingFlagDispatchesThenResets : Prop :=
  ∀ (s : State) (S : Session), s.session = some S → S.state = .receivingData → 5 < S.receiveIndex →
    (∀ t T, exec (.dispatch (S.rxb.read 0) (S.rxb.read 1) (S.rxb.read 2)) s = .next t → t.session = some T →
      ∃ U, exec .rxFlagDispatch s = .next { t with session := some U } ∧ restartOf T U) ∧
    (∀ r, exec (.dispatch (S.rxb.read 0) (S.rxb.read 1) (S.rxb.read 2)) s = .refused r →
      exec .rxFlagDispatch s = .refused r)

/-- `RX.FLAG.DISPATCH` completes for every frame of 6 to 256 octets whose Payload Processor call, if there is
one, keeps its contract: the session is at a frame boundary and keeps its configuration. -/
def Obligations.ClosingFlagCompletes : Prop :=
  ∀ (s : State) (S : Session) (a : ProcAnswer), s.session = some S → S.state = .receivingData →
    6 ≤ S.receiveIndex → S.receiveIndex ≤ 256 → nextTurn s = .returns a →
    ∃ t T, exec .rxFlagDispatch s = .next t ∧ t.session = some T ∧
      T.state = .receivingData ∧ T.receiveIndex = 0 ∧
      T.ownAddress = S.ownAddress ∧ T.crcCheckEnable = S.crcCheckEnable ∧
      ∀ k, T.rxb.read k = 0x00 ∧ T.txb.read k = 0x00 ∧ T.plb.read k = 0x00

/-- `RXBYTE` refuses no octet (42_rx_assembler.md R152) while the Payload Processor keeps its contract: it
completes, with the index still in 0..256 and the configuration unchanged. -/
def Obligations.RxbyteCompletes : Prop :=
  ∀ (s : State) (S : Session) (a : ProcAnswer) (b : Byte), s.session = some S → S.receiveIndex ≤ 256 →
    nextTurn s = .returns a →
    ∃ t T, exec (.rxbyte b) s = .next t ∧ t.session = some T ∧ T.receiveIndex ≤ 256 ∧
      T.ownAddress = S.ownAddress ∧ T.crcCheckEnable = S.crcCheckEnable

/-- THE FRAME of every micro-operation that does not dispatch: nothing is emitted, called, raised or returned,
the environment's inputs are untouched, and of the session only `state`, `receive_index` and the buffers can
change (60_exceptions.md R201 to R203). Of the buffers (20_memory.md R51): RX.DATA and RX.UNESC leave TXB and
PLB, and every octet of RXB but the one at `receive_index`, where `Session.storeReceived` stores; RX.IDLE, RX.ESC
and RX.FLAG.IDLE leave all three; the others zero all three, which buffers being decision D7. -/
def Obligations.AssemblingIsSilent : Prop :=
  ∀ (i : Instr) (s t : State) (S : Session) (b : Byte),
    selectedBy S b i → i ≠ .rxFlagDispatch → s.session = some S → S.rxb.wf = true → exec i s = .next t →
    ∃ T, t = { s with session := some T } ∧
      T = { S with
            receiveIndex := T.receiveIndex
            state := T.state
            rxb := T.rxb
            txb := T.txb
            plb := T.plb } ∧
      (i = .rxData b ∨ i = .rxUnesc b →
        T.txb = S.txb ∧ T.plb = S.plb ∧ ∀ a, a ≠ S.receiveIndex → T.rxb.read a = S.rxb.read a) ∧
      (i = .rxIdle b ∨ i = .rxEsc ∨ i = .rxFlagIdle → T.rxb = S.rxb ∧ T.txb = S.txb ∧ T.plb = S.plb) ∧
      (i = .rxStart ∨ i = .rxFlagShort ∨ i = .rxOverrun b ∨ i = .rxUnescOverrun b →
        ∀ a, T.rxb.read a = 0x00 ∧ T.txb.read a = 0x00 ∧ T.plb.read a = 0x00)

/-! ## Frame Dispatcher -/

/-- The address and control filter (43_dispatcher.md R162): a frame for another node, or with another control
octet, changes nothing at all, whatever its checksum. -/
def Obligations.FilteredFrameIsIgnored : Prop :=
  ∀ (s : State) (S : Session), s.session = some S → 5 ≤ S.receiveIndex → S.receiveIndex ≤ 256 →
    (S.rxb.read 1 ≠ S.ownAddress ∨ S.rxb.read 2 ≠ 0x13) →
    exec (.dispatch (S.rxb.read 0) (S.rxb.read 1) (S.rxb.read 2)) s = .next s

/-- A checksum mismatch under verification (43_dispatcher.md R163, R164; 60_exceptions.md R205): `CrcError`
is raised, `expected_crc` holds the claimed checksum, PLB holds the payload, and nothing else happens. -/
def Obligations.BadChecksumRaisesCrcError : Prop :=
  ∀ (s : State) (S : Session), s.session = some S → 5 ≤ S.receiveIndex → S.receiveIndex ≤ 256 →
    S.rxb.read 1 = S.ownAddress → S.rxb.read 2 = 0x13 → S.crcCheckEnable = true → S.plb.wf = true →
    crc16 (S.rxb.slice 0 (S.receiveIndex - 2)) ≠
      S.rxb.read (S.receiveIndex - 2) ++ S.rxb.read (S.receiveIndex - 1) →
    ∃ plb, exec (.dispatch (S.rxb.read 0) (S.rxb.read 1) (S.rxb.read 2)) s =
        .next { s with
          session := some { S with
              expectedCrc := some (S.rxb.read (S.receiveIndex - 2) ++ S.rxb.read (S.receiveIndex - 1))
              plb := plb }
          events := s.events ++ [.crcError] } ∧
      (∀ k, k < S.receiveIndex - 5 → plb.read k = S.rxb.read (3 + k)) ∧
      ∀ k, S.receiveIndex - 5 ≤ k → plb.read k = S.plb.read k

/-- Acceptance, the Payload Processor call and the reply decision (43_dispatcher.md R163 to R168). When the
filter passes and the checksum matches or is not verified, the processor is called once with `n = length - 5`
and sees the session with the payload, the claimed checksum, the peer and the control octet written and
everything else as it was (20_memory.md R66); it writes PLB; then no reply at 0 or below, LenError above 251,
and otherwise the outcome is that of TXFRAME with the first `reply_len` octets of PLB. Acceptance before the
call is decision D10; the form of the processor's turns is the model's (log entry 4). -/
def Obligations.AcceptedFrameIsProcessedAndAnswered : Prop :=
  ∀ (s : State) (S : Session) (a : ProcAnswer), s.session = some S →
    5 ≤ S.receiveIndex → S.receiveIndex ≤ 256 →
    S.rxb.read 1 = S.ownAddress → S.rxb.read 2 = 0x13 → S.plb.wf = true →
    (S.crcCheckEnable = false ∨
      crc16 (S.rxb.slice 0 (S.receiveIndex - 2)) =
        S.rxb.read (S.receiveIndex - 2) ++ S.rxb.read (S.receiveIndex - 1)) →
    nextTurn s = .returns a →
    ∃ V U t, V = { S with
          expectedCrc := some (S.rxb.read (S.receiveIndex - 2) ++ S.rxb.read (S.receiveIndex - 1))
          plb := V.plb
          peerSourceAddress := some (S.rxb.read 0)
          controlByte := some 0x13 } ∧
      (∀ k, k < S.receiveIndex - 5 → V.plb.read k = S.rxb.read (3 + k)) ∧
      (∀ k, S.receiveIndex - 5 ≤ k → V.plb.read k = S.plb.read k) ∧
      U = { V with plb := V.plb.applyWrites a.writes } ∧
      t = { afterTurn s with session := some U, calls := s.calls ++ [⟨S.receiveIndex - 5, V⟩] } ∧
      (a.reply ≤ 0 →
        exec (.dispatch (S.rxb.read 0) (S.rxb.read 1) (S.rxb.read 2)) s = .next t) ∧
      (251 < a.reply →
        exec (.dispatch (S.rxb.read 0) (S.rxb.read 1) (S.rxb.read 2)) s =
          .next { t with events := s.events ++ [.lenError a.reply.toNat] }) ∧
      (0 < a.reply → a.reply ≤ 251 →
        exec (.dispatch (S.rxb.read 0) (S.rxb.read 1) (S.rxb.read 2)) s =
          exec (.txframe (U.plb.slice 0 a.reply.toNat)) t)

/-- What the spec refuses in DISPATCH: a length outside 5..256 (43_dispatcher.md R160, decision D28), and, for
an accepted frame, a Payload Processor that breaks its contract (R166, decision D11; the breach as a turn is log
entry 4). -/
def Obligations.DispatchOutsideContractIsRefused : Prop :=
  (∀ (s : State) (S : Session), s.session = some S → (S.receiveIndex < 5 ∨ 256 < S.receiveIndex) →
    exec (.dispatch (S.rxb.read 0) (S.rxb.read 1) (S.rxb.read 2)) s =
      .refused (.dispatchLength S.receiveIndex)) ∧
  ∀ (s : State) (S : Session) (how : ContractBreach), s.session = some S →
    5 ≤ S.receiveIndex → S.receiveIndex ≤ 256 → S.rxb.read 1 = S.ownAddress → S.rxb.read 2 = 0x13 →
    (S.crcCheckEnable = false ∨
      crc16 (S.rxb.slice 0 (S.receiveIndex - 2)) =
        S.rxb.read (S.receiveIndex - 2) ++ S.rxb.read (S.receiveIndex - 1)) →
    nextTurn s = .breaks how →
    exec (.dispatch (S.rxb.read 0) (S.rxb.read 1) (S.rxb.read 2)) s = .refused (.processorContract how)

/-- THE FRAME of DISPATCH (20_memory.md R51): RXB, `receive_index`, `state` and the configuration are as
before, the host's commands and the CRC16 results too; PLB changes only at the payload's indices and at those
the Payload Processor names; without a reply TXB is unchanged, and the peer and the control octet change
together or not at all. -/
def Obligations.DispatchChangesOnlyItsOwn : Prop :=
  ∀ (source dest control : Byte) (s t : State) (S T : Session),
    exec (.dispatch source dest control) s = .next t → s.session = some S → t.session = some T →
    S.plb.wf = true → S.txb.wf = true →
    T.rxb = S.rxb ∧ T.receiveIndex = S.receiveIndex ∧ T.state = S.state ∧
    T.ownAddress = S.ownAddress ∧ T.crcCheckEnable = S.crcCheckEnable ∧
    t.hostCommands = s.hostCommands ∧ t.results = s.results ∧
    (t.sink = s.sink → T.txb = S.txb) ∧
    (∀ a, nextTurn s = .returns a →
      (∀ k, S.receiveIndex - 5 ≤ k → (∀ w ∈ a.writes, w.1.val ≠ k) → T.plb.read k = S.plb.read k) ∧
      ∀ k, 5 + a.reply.toNat ≤ k → T.txb.read k = S.txb.read k) ∧
    (t.calls = s.calls → T.peerSourceAddress = S.peerSourceAddress ∧ T.controlByte = S.controlByte)

/-! ## Transmit Framer -/

/-- `TXFRAME` above 251 octets (44_tx_framer.md R180; 60_exceptions.md R206; the event's form is decision
D14): `LenError(len)` and nothing else, with or without a peer. -/
def Obligations.OverlongFrameRaisesLenError : Prop :=
  ∀ (s : State) (S : Session) (payload : List Byte), s.session = some S → 251 < payload.length →
    exec (.txframe payload) s = .next { s with events := s.events ++ [.lenError payload.length] }

/-- `TXFRAME` of a legal length while `peer_source_address` has no value is refused (44_tx_framer.md R186,
decision D19). -/
def Obligations.FrameWithoutPeerIsRefused : Prop :=
  ∀ (s : State) (S : Session) (payload : List Byte), s.session = some S → payload.length ≤ 251 →
    S.peerSourceAddress = none → exec (.txframe payload) s = .refused .noPeer

/-- `TXFRAME` of a legal length with a peer (44_tx_framer.md R182, R183): the body is built in TXB at its
fixed places, every other octet of TXB reads as before, and FLAG, the escaped body, FLAG are emitted. -/
def Obligations.FrameIsBuiltAndEmitted : Prop :=
  ∀ (s : State) (S : Session) (peer : Byte) (payload : List Byte),
    s.session = some S → S.peerSourceAddress = some peer → payload.length ≤ 251 → S.txb.wf = true →
    ∃ txb crc, crc = crc16 ([S.ownAddress, peer, 0x13] ++ payload) ∧
      exec (.txframe payload) s =
        .next { s with
          session := some { S with txb := txb }
          sink := s.sink ++ ([0x7E] ++ encodeBytes (addressedBody S.ownAddress peer payload crc) ++ [0x7E]) } ∧
      txb.read 0 = S.ownAddress ∧ txb.read 1 = peer ∧ txb.read 2 = 0x13 ∧
      (∀ k (hk : k < payload.length), txb.read (3 + k) = payload[k]) ∧
      txb.read (3 + payload.length) = crc.extractLsb' 8 8 ∧
      txb.read (4 + payload.length) = crc.extractLsb' 0 8 ∧
      ∀ a, 5 + payload.length ≤ a → txb.read a = S.txb.read a

/-- The size of a frame on the wire (44_tx_framer.md R183, 30_encoding.md R95): `TXFRAME` of `len` octets emits
between `7 + len` and `12 + 2 len` octets, so never more than 514. -/
def Obligations.FrameSizeOnTheWire : Prop :=
  ∀ (s t : State) (payload : List Byte), exec (.txframe payload) s = .next t → payload.length ≤ 251 →
    ∃ octets, t.sink = s.sink ++ octets ∧ 7 + payload.length ≤ octets.length ∧
      octets.length ≤ 12 + 2 * payload.length ∧ octets.length ≤ 514

/-- `TXRAW` (44_tx_framer.md R187; the bound 254 is decision D15, the untouched session D16): above 254
octets `LenError(len)`; else FLAG, the escaped payload and checksum, FLAG; nothing of the session is read or
written. -/
def Obligations.RawFrameIsEmitted : Prop :=
  ∀ (s : State) (S : Session) (payload : List Byte), s.session = some S →
    (254 < payload.length →
      exec (.txraw payload) s = .next { s with events := s.events ++ [.lenError payload.length] }) ∧
    (payload.length ≤ 254 →
      exec (.txraw payload) s =
        .next { s with
          sink := s.sink ++ ([0x7E] ++ encodeBytes (payload ++
            [(crc16 payload).extractLsb' 8 8, (crc16 payload).extractLsb' 0 8]) ++ [0x7E]) })

/-! ## Reset and initialisation -/

/-- `INIT` (70_reset_and_hazards.md R230; 10_state.md R36; the values "no value" and 0x00 are decisions D7 and
D8): at any time, whatever the session was, every field has its reset value. -/
def Obligations.InitMakesFreshSession : Prop :=
  ∀ (s : State) (own : Byte) (crcEn : Bool),
    ∃ T, exec (.init own crcEn) s = .next { s with session := some T } ∧
      T.ownAddress = own ∧ T.crcCheckEnable = crcEn ∧ T.state = .awaitingStart ∧ T.receiveIndex = 0 ∧
      T.peerSourceAddress = none ∧ T.controlByte = none ∧ T.expectedCrc = none ∧
      ∀ a, T.rxb.read a = 0x00 ∧ T.txb.read a = 0x00 ∧ T.plb.read a = 0x00

/-- The reset state is what `INIT` leaves, with `crc_en` at its default 1 (10_state.md R31) and the model's
own address 0x00 (log entry 2); the lists and the counter are the model's (log entries 1, 4, 5, 8). -/
def Obligations.ResetIsWhatInitLeaves : Prop :=
  exec (.init 0x00 true) State.powerOn = .next State.reset

/-- Before the first `INIT` every operation but INIT, CRC16 and ENCBYTE is refused
(70_reset_and_hazards.md R231, decision D8), and those three complete. -/
def Obligations.NothingRunsBeforeInit : Prop :=
  ∀ (s : State) (i : Instr), s.session = none →
    match i with
    | .init _ _ => ∃ t, exec i s = .next t
    | .crc16 _ => ∃ t, exec i s = .next t
    | .encbyte _ => ∃ t, exec i s = .next t
    | _ => exec i s = .refused .noSession

/-! ## Rules of the whole machine -/

/-- The invariant holds at reset. -/
def Obligations.ResetMeetsInvariant : Prop := State.reset.Inv

/-- AN INVARIANT THAT EVERY STEP KEEPS (10_state.md R35, R23; 43_dispatcher.md R163): the index stays in
0..256, AwaitingStart means index 0, RXB is blank from the index on, PLB is blank between commands,
`control_byte` is 0x13 when it has a value, and the buffers keep their canonical form. -/
def Obligations.EveryStepKeepsInvariant : Prop :=
  ∀ s t : State, s.Inv → step s = .next t → t.Inv

/-- Only `INIT` writes the configuration (10_state.md R38, 60_exceptions.md R218). -/
def Obligations.OnlyInitWritesConfiguration : Prop :=
  ∀ (i : Instr) (s t : State) (S T : Session), (∀ own en, i ≠ .init own en) → exec i s = .next t →
    s.session = some S → t.session = some T →
    T.ownAddress = S.ownAddress ∧ T.crcCheckEnable = S.crcCheckEnable

/-- The state graph (42_rx_assembler.md R156 (a), R152), INIT apart. No edge leads into AwaitingStart from
another state. Every change of `state` is one of the edges AwaitingStart to ReceivingData on RX.START,
ReceivingData to ProcessingEscape on RX.ESC, ProcessingEscape to ReceivingData on RX.UNESC and RX.UNESC.OVERRUN,
run alone or by RXBYTE: so none is made by DISPATCH, TXFRAME, TXRAW, CRC16 or ENCBYTE. No edge leads from
ProcessingEscape to itself. -/
def Obligations.StateGraphHasNoOtherEdge : Prop :=
  ∀ (i : Instr) (s t : State) (S T : Session), (∀ own en, i ≠ .init own en) → exec i s = .next t →
    s.session = some S → t.session = some T →
    (S.state ≠ .awaitingStart → T.state ≠ .awaitingStart) ∧
    (T.state = S.state ∨
      (S.state = .awaitingStart ∧ T.state = .receivingData ∧ (i = .rxStart ∨ i = .rxbyte 0x7E)) ∨
      (S.state = .receivingData ∧ T.state = .processingEscape ∧ (i = .rxEsc ∨ i = .rxbyte 0x7D)) ∨
      (S.state = .processingEscape ∧ T.state = .receivingData ∧
        ∃ b, i = .rxUnesc b ∨ i = .rxUnescOverrun b ∨ i = .rxbyte b)) ∧
    (S.state = .processingEscape → (isReceive i = true ∨ ∃ b, i = .rxbyte b) → T.state = .receivingData)

/-- The outputs only grow, in order (44_tx_framer.md R181, 70_reset_and_hazards.md R234), and one operation
raises at most one event (60_exceptions.md R210) and makes at most one Payload Processor call (43_dispatcher.md
R166); `CrcError` excludes a call. -/
def Obligations.OutputsOnlyGrow : Prop :=
  ∀ (i : Instr) (s t : State), exec i s = .next t →
    (∃ bs, t.sink = s.sink ++ bs) ∧
    (∃ vs, t.results = s.results ++ vs) ∧
    ∃ es cs, t.events = s.events ++ es ∧ t.calls = s.calls ++ cs ∧ es.length ≤ 1 ∧ cs.length ≤ 1 ∧
      (.crcError ∈ es → cs = [] ∧ t.sink = s.sink)

/-- With `crc_check_enable` 0 no operation raises `CrcError` (43_dispatcher.md R164, 60_exceptions.md R205). -/
def Obligations.NoCrcErrorWhenDisabled : Prop :=
  ∀ (i : Instr) (s t : State) (S : Session), exec i s = .next t → s.session = some S →
    S.crcCheckEnable = false → ∃ es, t.events = s.events ++ es ∧ .crcError ∉ es

/-- `peer_source_address` and `control_byte` change only when a frame is accepted, and then to that frame's
source and 0x13; `INIT` apart (43_dispatcher.md R165, decision D10). -/
def Obligations.PeerChangesOnlyAtAcceptance : Prop :=
  ∀ (i : Instr) (s t : State) (S T : Session), (∀ own en, i ≠ .init own en) → exec i s = .next t →
    s.session = some S → t.session = some T →
    (T.peerSourceAddress = S.peerSourceAddress ∧ T.controlByte = S.controlByte ∧ t.calls = s.calls) ∨
    (T.peerSourceAddress = some (S.rxb.read 0) ∧ T.controlByte = some 0x13 ∧
      S.rxb.read 1 = S.ownAddress ∧ S.rxb.read 2 = 0x13 ∧
      (S.crcCheckEnable = true →
        crc16 (S.rxb.slice 0 (S.receiveIndex - 2)) =
          S.rxb.read (S.receiveIndex - 2) ++ S.rxb.read (S.receiveIndex - 1)) ∧
      ∃ c, t.calls = s.calls ++ [c] ∧ c.n = S.receiveIndex - 5 ∧
        c.seen.receiveIndex = S.receiveIndex ∧ c.seen.rxb = S.rxb)

/-- No rule reads `control_byte`, nor `expected_crc` before writing it (10_state.md R23, R28;
93_implementation_defined.md U5): whatever they hold, an operation's outputs and the rest of the state come out
the same. -/
def Obligations.UnreadFieldsDoNotInfluence : Prop :=
  ∀ (i : Instr) (s t : State) (S : Session) (c : Option Byte) (e : Option Half),
    s.session = some S → exec i s = .next t →
    ∃ t', exec i { s with session := some { S with controlByte := c, expectedCrc := e } } = .next t' ∧
      { t' with session := t'.session.map Session.forgetUnread } =
        { t with session := t.session.map Session.forgetUnread }

/-! ## Runs -/

/-- The codec through the assembler (41_codec.md R133): FLAG and an escaped body of at most 256 octets, fed
from AwaitingStart, leave the body in RXB, with no output. -/
def Obligations.EscapedBodyIsAssembled : Prop :=
  ∀ (s : State) (S : Session) (body : List Byte), s.session = some S → S.state = .awaitingStart →
    body.length ≤ 256 →
    ∃ T, Host.Core.run Sys2Proof.core (1 + (encodeBytes body).length)
        (s.feed (0x7E :: encodeBytes body)) = .next { s with session := some T, hostCommands := [] } ∧
      T.state = .receivingData ∧ T.receiveIndex = body.length ∧ T.rxb.slice 0 body.length = body

/-- The loop-back property (44_tx_framer.md R189): the octets `TXFRAME` emits, fed as emitted to a receiver at
a frame boundary, leave in its RXB, just before the closing FLAG, the body the sender built in TXB. -/
def Obligations.TransmittedFrameIsReceived : Prop :=
  ∀ (s₁ s₂ : State) (S₁ S₂ : Session) (peer : Byte) (payload : List Byte),
    s₁.session = some S₁ → S₁.peerSourceAddress = some peer → S₁.txb.wf = true → payload.length ≤ 251 →
    s₂.session = some S₂ → S₂.atBoundary → S₂.rxb.wf = true →
    ∃ t₁ T₁ octets T₂, exec (.txframe payload) s₁ = .next t₁ ∧ t₁.session = some T₁ ∧
      t₁.sink = s₁.sink ++ octets ++ [0x7E] ∧
      Host.Core.run Sys2Proof.core octets.length (s₂.feed octets) =
        .next { s₂ with session := some T₂, hostCommands := [] } ∧
      T₂.state = .receivingData ∧ T₂.receiveIndex = 5 + payload.length ∧
      T₂.rxb.slice 0 (5 + payload.length) = T₁.txb.slice 0 (5 + payload.length)

/-- POLL AND REPLY, end to end (43_dispatcher.md R162 to R168, 42_rx_assembler.md R146): a correct frame for
this node with 1 to 251 payload octets, fed to a receiver at a frame boundary, calls the Payload Processor
once, with exactly the payload; no event is raised unless the reply is too long; without a reply nothing is
emitted, and with one the frame from this node to the source is emitted. -/
def Obligations.PolledFrameIsAnswered : Prop :=
  ∀ (s : State) (S : Session) (a : ProcAnswer) (source : Byte) (payload : List Byte),
    s.session = some S → S.atBoundary → S.Inv → nextTurn s = .returns a →
    1 ≤ payload.length → payload.length ≤ 251 →
    ∃ t T c octets, octets = wireFrame (addressedBody source S.ownAddress payload
          (crc16 ([source, S.ownAddress, 0x13] ++ payload))) ∧
      Host.Core.run Sys2Proof.core octets.length (s.feed octets) = .next t ∧
      t.session = some T ∧ T.peerSourceAddress = some source ∧ T.receiveIndex = 0 ∧ T.state = .receivingData ∧
      t.calls = s.calls ++ [c] ∧ c.n = payload.length ∧ c.seen.plb.slice 0 c.n = payload ∧
      (a.reply ≤ 251 → t.events = s.events) ∧
      (a.reply ≤ 0 → t.sink = s.sink) ∧
      (251 < a.reply → t.sink = s.sink ∧ t.events = s.events ++ [.lenError a.reply.toNat]) ∧
      (∀ reply, reply = (c.seen.plb.applyWrites a.writes).slice 0 a.reply.toNat → 0 < a.reply → a.reply ≤ 251 →
        t.sink = s.sink ++ wireFrame (addressedBody S.ownAddress source reply
          (crc16 ([S.ownAddress, source, 0x13] ++ reply))))

/-- A corrupted frame for this node, end to end (43_dispatcher.md R164; 60_exceptions.md R205): under
verification a frame whose checksum octets do not match raises `CrcError`, reaches no Payload Processor, emits
nothing, and the node is at a frame boundary again with its peer unchanged. -/
def Obligations.CorruptFrameIsDropped : Prop :=
  ∀ (s : State) (S : Session) (source : Byte) (payload : List Byte) (claimed : Half),
    s.session = some S → S.atBoundary → S.Inv → S.crcCheckEnable = true →
    1 ≤ payload.length → payload.length ≤ 251 →
    claimed ≠ crc16 ([source, S.ownAddress, 0x13] ++ payload) →
    ∃ T octets, octets = wireFrame (addressedBody source S.ownAddress payload claimed) ∧
      Host.Core.run Sys2Proof.core octets.length (s.feed octets) =
        .next { s with session := some T, hostCommands := [], events := s.events ++ [.crcError] } ∧
      T.state = .receivingData ∧ T.receiveIndex = 0 ∧ T.expectedCrc = some claimed ∧
      T.peerSourceAddress = S.peerSourceAddress ∧ T.controlByte = S.controlByte
end

