-- ==== Sys2Proof/Laws/Codec.lean ====
section
/-! SUPPORT. The codec on one octet and on a sequence (41_codec.md R130 to R133). -/

namespace Sys2Proof.Machine

theorem encodeByte_reserved {b : Byte} (h : b = 0x7E ∨ b = 0x7D) : encodeByte b = [0x7D, b ^^^ 0x20] :=
  if_pos h

theorem encodeByte_plain {b : Byte} (h : ¬ (b = 0x7E ∨ b = 0x7D)) : encodeByte b = [b] :=
  if_neg h

/-- One octet takes one or two octets on the wire (30_encoding.md R86). -/
theorem length_encodeByte (b : Byte) : 1 ≤ (encodeByte b).length ∧ (encodeByte b).length ≤ 2 := by
  by_cases h : b = 0x7E ∨ b = 0x7D
  · simp [encodeByte_reserved h]
  · simp [encodeByte_plain h]

theorem encodeBytes_append (xs ys : List Byte) : encodeBytes (xs ++ ys) = encodeBytes xs ++ encodeBytes ys := by
  induction xs with
  | nil => rfl
  | cons b rest ih => simp [encodeBytes, ih]

/-- A sequence of `n` octets takes `n` to `2 n` octets on the wire (30_encoding.md R95). -/
theorem length_encodeBytes (xs : List Byte) :
    xs.length ≤ (encodeBytes xs).length ∧ (encodeBytes xs).length ≤ 2 * xs.length := by
  induction xs with
  | nil => simp [encodeBytes]
  | cons b rest ih =>
    have := length_encodeByte b
    simp only [encodeBytes, List.length_append, List.length_cons]
    omega

theorem unescape_unescape (x : Byte) : unescape (unescape x) = x := by
  simp [unescape]

end Sys2Proof.Machine
end

