-- ==== Sys2Proof/Laws/Config.lean ====
section
/-! SUPPORT. The values of the named constants, one lemma each (00_scope.md R7, R8), and how the derived ones
come from the others. -/

namespace Sys2Proof

theorem cfg_capacity : cfg.capacity = 256 := rfl
theorem cfg_txbCapacity : cfg.txbCapacity = 256 := rfl
theorem cfg_plbCapacity : cfg.plbCapacity = 256 := rfl
theorem cfg_flag : cfg.flag = 0x7E := rfl
theorem cfg_esc : cfg.esc = 0x7D := rfl
theorem cfg_escMask : cfg.escMask = 0x20 := rfl
theorem cfg_ctrlCmd : cfg.ctrlCmd = 0x13 := rfl
theorem cfg_ctrlReply : cfg.ctrlReply = 0x13 := rfl
theorem cfg_crcInit : cfg.crcInit = 0xFFFF := rfl
theorem cfg_crcPoly : cfg.crcPoly = 0x8408 := rfl
theorem cfg_headerLen : cfg.headerLen = 3 := rfl
theorem cfg_minFrame : cfg.minFrame = 5 := rfl
theorem cfg_dispatchAbove : cfg.dispatchAbove = 5 := rfl
theorem cfg_txMaxPayload : cfg.txMaxPayload = 251 := rfl
theorem cfg_rawMaxPayload : cfg.rawMaxPayload = 254 := rfl

/-- `CTRL_CMD` and `CTRL_REPLY` are `CTRL_INFO or CTRL_PF` (00_scope.md R7, 90_conflicts.md C3). -/
theorem cfg_ctrl : cfg.ctrlCmd = cfg.ctrlInfo ||| cfg.ctrlPf ∧ cfg.ctrlReply = cfg.ctrlCmd := by decide

/-- `MIN_FRAME`, `TX_MAX_PAYLOAD` and `RAW_MAX_PAYLOAD` from the other constants (00_scope.md R7, R8). -/
theorem cfg_lengths :
    cfg.minFrame = cfg.headerLen + cfg.fcsLen ∧ cfg.txMaxPayload = cfg.capacity - cfg.minFrame ∧
    cfg.rawMaxPayload = cfg.capacity - cfg.fcsLen := by decide

end Sys2Proof
end

