-- ==== Sys2Proof/Laws/Memory.lean ====
section
/-! SUPPORT. The laws of a buffer: every operation keeps the canonical form, a read after a write, equal reads
make equal buffers. -/

namespace Sys2Proof.Machine

/-! ## The canonical form as an order on cells -/

/-- Every index of `m` is above `a`. -/
def Memory.above (a : Nat) (m : Memory) : Prop := ∀ c ∈ m, a < c.1

theorem Memory.wf_cons (a : Nat) (v : Byte) (m : Memory) :
    Memory.wf ((a, v) :: m) = true ↔ v ≠ 0x00 ∧ Memory.above a m ∧ Memory.wf m = true := by
  induction m generalizing a v with
  | nil => simp [Memory.wf, Memory.above, Memory.blank]
  | cons c rest ih =>
    obtain ⟨b, w⟩ := c
    have hcons : Memory.wf ((a, v) :: (b, w) :: rest) =
        (v != Memory.blank && decide (a < b) && Memory.wf ((b, w) :: rest)) := rfl
    rw [hcons]
    simp only [Bool.and_eq_true, bne_iff_ne, ne_eq, decide_eq_true_eq, Memory.blank]
    constructor
    · rintro ⟨⟨hv, hab⟩, hw⟩
      refine ⟨hv, ?_, hw⟩
      intro c hc
      rcases List.mem_cons.1 hc with rfl | hc
      · exact hab
      · exact Nat.lt_trans hab (((ih b w).1 hw).2.1 c hc)
    · rintro ⟨hv, habove, hw⟩
      exact ⟨⟨hv, habove (b, w) (by simp)⟩, hw⟩

theorem Memory.read_above {a i : Nat} {m : Memory} (h : Memory.above a m) (hi : i ≤ a) : m.read i = 0x00 := by
  induction m with
  | nil => rfl
  | cons c rest ih =>
    obtain ⟨b, w⟩ := c
    have hb : a < b := h (b, w) (by simp)
    have : b ≠ i := by omega
    simp only [Memory.read, this, if_false]
    exact ih fun c hc => h c (by simp [hc])

theorem Memory.above_write {a i : Nat} {v : Byte} {m : Memory} (h : Memory.above a m) (hi : a < i) :
    Memory.above a (m.write i v) := by
  induction m with
  | nil =>
    simp only [Memory.write, Memory.cons]
    split <;> simp [Memory.above, hi]
  | cons c rest ih =>
    obtain ⟨b, w⟩ := c
    have hb : a < b := h (b, w) (by simp)
    have hrest : Memory.above a rest := fun c hc => h c (by simp [hc])
    simp only [Memory.write, Memory.cons]
    split
    · split
      · exact h
      · exact fun c hc => by
          rcases List.mem_cons.1 hc with rfl | hc
          · exact hi
          · exact h c hc
    · split
      · split
        · exact hrest
        · exact fun c hc => by
            rcases List.mem_cons.1 hc with rfl | hc
            · exact hi
            · exact hrest c hc
      · exact fun c hc => by
          rcases List.mem_cons.1 hc with rfl | hc
          · exact hb
          · exact ih hrest c hc

/-- A store keeps the canonical form. -/
theorem Memory.write_wf {m : Memory} (h : m.wf = true) (i : Nat) (v : Byte) : (m.write i v).wf = true := by
  induction m with
  | nil =>
    simp only [Memory.write, Memory.cons]
    split
    · rfl
    · exact (Memory.wf_cons i v []).2 ⟨‹_›, by simp [Memory.above], rfl⟩
  | cons c rest ih =>
    obtain ⟨a, w⟩ := c
    obtain ⟨hw, habove, hrest⟩ := (Memory.wf_cons a w rest).1 h
    simp only [Memory.write, Memory.cons]
    split
    · split
      · exact h
      · refine (Memory.wf_cons i v _).2 ⟨‹_›, fun c hc => ?_, h⟩
        rcases List.mem_cons.1 hc with rfl | hc
        · assumption
        · have := habove c hc; omega
    · split
      · split
        · exact hrest
        · refine (Memory.wf_cons i v _).2 ⟨‹_›, fun c hc => ?_, hrest⟩
          have := habove c hc; omega
      · exact (Memory.wf_cons a w _).2 ⟨hw, Memory.above_write habove (by omega), ih hrest⟩

/-- A cell put before cells that read 0x00 at its index. -/
theorem Memory.read_cons {rest : Memory} {i : Nat} (h : rest.read i = 0x00) (v : Byte) (j : Nat) :
    (Memory.cons i v rest).read j = if j = i then v else rest.read j := by
  unfold Memory.cons Memory.blank
  by_cases hv : v = 0x00
  · rw [if_pos hv]
    by_cases hj : j = i
    · subst hj; simp [h, hv]
    · simp [hj]
  · rw [if_neg hv]
    by_cases hj : j = i
    · simp [Memory.read, hj]
    · simp [Memory.read, hj, Ne.symm hj]

/-- A read after a store: the stored octet at its index, every other octet as before (20_memory.md R55). -/
theorem Memory.read_write {m : Memory} (h : m.wf = true) (i j : Nat) (v : Byte) :
    (m.write i v).read j = if j = i then v else m.read j := by
  induction m with
  | nil => exact Memory.read_cons rfl v j
  | cons c rest ih =>
    obtain ⟨a, w⟩ := c
    obtain ⟨hw, habove, hrest⟩ := (Memory.wf_cons a w rest).1 h
    have hlow : ∀ k ≤ a, Memory.read rest k = 0x00 := fun k hk => Memory.read_above habove hk
    unfold Memory.write
    by_cases hia : i < a
    · rw [if_pos hia]
      refine Memory.read_cons ?_ v j
      simp [Memory.read, show a ≠ i by omega, hlow i (by omega)]
    · rw [if_neg hia]
      by_cases hie : i = a
      · subst hie
        rw [if_pos rfl, Memory.read_cons (hlow i (Nat.le_refl i))]
        by_cases hj : j = i
        · simp [hj]
        · simp [Memory.read, hj, Ne.symm hj]
      · rw [if_neg hie]
        by_cases hja : a = j
        · subst hja
          simp [Memory.read, Ne.symm hie]
        · simp [Memory.read, hja, ih hrest]

@[simp] theorem Memory.read_cleared (i : Nat) : Memory.cleared.read i = 0x00 := rfl

@[simp] theorem Memory.cleared_wf : Memory.cleared.wf = true := rfl

/-! ## Ranges -/

theorem Memory.fill_wf {m : Memory} (h : m.wf = true) (base : Nat) (bytes : List Byte) :
    (m.fill base bytes).wf = true := by
  induction bytes generalizing m base with
  | nil => exact h
  | cons v rest ih => exact ih (Memory.write_wf h base v) (base + 1)

/-- A read after the stores of `bytes` from `base`. -/
theorem Memory.read_fill {m : Memory} (h : m.wf = true) (base : Nat) (bytes : List Byte) (j : Nat) :
    (m.fill base bytes).read j =
      if hj : base ≤ j ∧ j - base < bytes.length then bytes[j - base]'hj.2 else m.read j := by
  induction bytes generalizing m base with
  | nil => simp [Memory.fill]
  | cons v rest ih =>
    rw [Memory.fill, ih (Memory.write_wf h base v) (base + 1), Memory.read_write h]
    by_cases hj : j = base
    · subst hj; simp
    · by_cases hlt : base ≤ j
      · obtain ⟨k, rfl⟩ : ∃ k, j = base + 1 + k := ⟨j - (base + 1), by omega⟩
        have h1 : base + 1 + k - base = k + 1 := by omega
        have h2 : base + 1 + k - (base + 1) = k := by omega
        simp [h1, show base ≤ base + 1 + k by omega, show base + 1 + k ≠ base by omega]
      · simp [hlt, hj, show ¬ base + 1 ≤ j by omega]

@[simp] theorem Memory.length_slice (m : Memory) (base n : Nat) : (m.slice base n).length = n := by
  induction n generalizing base with
  | zero => rfl
  | succ n ih => simp [Memory.slice, ih]

@[simp] theorem Memory.getElem_slice (m : Memory) (base n k : Nat) (h : k < (m.slice base n).length) :
    (m.slice base n)[k] = m.read (base + k) := by
  induction n generalizing base k with
  | zero => simp [Memory.slice] at h
  | succ n ih =>
    cases k with
    | zero => simp [Memory.slice]
    | succ k =>
      simp only [Memory.slice, List.getElem_cons_succ]
      rw [ih]
      congr 1
      omega

/-- Ranges with equal octets are equal lists. -/
theorem Memory.slice_congr {m m' : Memory} {base base' n : Nat}
    (h : ∀ k < n, m.read (base + k) = m'.read (base' + k)) : m.slice base n = m'.slice base' n := by
  apply List.ext_getElem (by simp)
  intro k hk _
  simpa using h k (by simpa using hk)

/-- The range just stored reads back. -/
theorem Memory.slice_fill {m : Memory} (h : m.wf = true) (base : Nat) (bytes : List Byte) :
    (m.fill base bytes).slice base bytes.length = bytes := by
  apply List.ext_getElem (by simp)
  intro k hk hk'
  simp [Memory.read_fill h, hk']

theorem Memory.applyWrites_wf {m : Memory} (h : m.wf = true) (ws : List (Fin 256 × Byte)) :
    (m.applyWrites ws).wf = true := by
  induction ws generalizing m with
  | nil => exact h
  | cons w rest ih => exact ih (Memory.write_wf h _ _)

/-- The Payload Processor writes only indices its answer names. -/
theorem Memory.read_applyWrites_other {m : Memory} (h : m.wf = true) (ws : List (Fin 256 × Byte)) (j : Nat)
    (hj : ∀ w ∈ ws, w.1.val ≠ j) : (m.applyWrites ws).read j = m.read j := by
  induction ws generalizing m with
  | nil => rfl
  | cons w rest ih =>
    rw [Memory.applyWrites, ih (Memory.write_wf h _ _) fun w' hw' => hj w' (by simp [hw']),
      Memory.read_write h]
    simp [Ne.symm (hj w (by simp))]

/-! ## Equal reads, equal buffers -/

theorem Memory.read_head {a : Nat} {v : Byte} {m : Memory} : Memory.read ((a, v) :: m) a = v := by
  simp [Memory.read]

/-- Two canonical buffers that read alike are the same data. -/
theorem Memory.ext_read {m m' : Memory} (h : m.wf = true) (h' : m'.wf = true)
    (hr : ∀ i, m.read i = m'.read i) : m = m' := by
  induction m generalizing m' with
  | nil =>
    cases m' with
    | nil => rfl
    | cons c rest =>
      obtain ⟨a, v⟩ := c
      have := hr a
      rw [Memory.read_head] at this
      exact absurd this.symm ((Memory.wf_cons a v rest).1 h').1
  | cons c rest ih =>
    obtain ⟨a, v⟩ := c
    obtain ⟨hv, habove, hrest⟩ := (Memory.wf_cons a v rest).1 h
    cases m' with
    | nil =>
      have := hr a
      rw [Memory.read_head] at this
      exact absurd this hv
    | cons c' rest' =>
      obtain ⟨a', v'⟩ := c'
      obtain ⟨hv', habove', hrest'⟩ := (Memory.wf_cons a' v' rest').1 h'
      have haa : a = a' := by
        rcases Nat.lt_trichotomy a a' with hlt | heq | hgt
        · have h1 := hr a
          rw [Memory.read_head] at h1
          have : a' ≠ a := by omega
          simp only [Memory.read, this, if_false, Memory.read_above habove' (Nat.le_of_lt hlt)] at h1
          exact absurd h1 hv
        · exact heq
        · have h1 := hr a'
          rw [Memory.read_head] at h1
          have : a ≠ a' := by omega
          simp only [Memory.read, this, if_false, Memory.read_above habove (Nat.le_of_lt hgt)] at h1
          exact absurd h1.symm hv'
      subst haa
      have hvv : v = v' := by have := hr a; rwa [Memory.read_head, Memory.read_head] at this
      subst hvv
      have : rest = rest' := ih hrest hrest' fun i => by
        by_cases hi : a = i
        · subst hi; rw [Memory.read_above habove (Nat.le_refl _), Memory.read_above habove' (Nat.le_refl _)]
        · have := hr i
          simpa [Memory.read, hi] using this
      rw [this]

/-- The buffers of the reset state are canonical. -/
theorem State.reset_wf :
    ∀ S, State.reset.session = some S → S.rxb.wf = true ∧ S.txb.wf = true ∧ S.plb.wf = true := by
  intro S h
  cases h
  exact ⟨rfl, rfl, rfl⟩

end Sys2Proof.Machine
end

