-- ==== Sys2Proof/Laws/State.lean ====
section
/-! SUPPORT. One lemma per field per update of the state, true by rfl, so that no later proof unfolds a record
update; and what `withSession` and `andThen` can do. -/

namespace Sys2Proof.Machine

section Put
variable (s : State) (S : Session)
@[simp] theorem State.putSession_session : (s.putSession S).session = some S := rfl
@[simp] theorem State.putSession_sink : (s.putSession S).sink = s.sink := rfl
@[simp] theorem State.putSession_calls : (s.putSession S).calls = s.calls := rfl
@[simp] theorem State.putSession_events : (s.putSession S).events = s.events := rfl
@[simp] theorem State.putSession_results : (s.putSession S).results = s.results := rfl
@[simp] theorem State.putSession_hostCommands : (s.putSession S).hostCommands = s.hostCommands := rfl
@[simp] theorem State.putSession_procScript : (s.putSession S).procScript = s.procScript := rfl
@[simp] theorem State.putSession_procCount : (s.putSession S).procCount = s.procCount := rfl
end Put

section Map
variable (s : State) (f : Session → Session)
@[simp] theorem State.mapSession_session : (s.mapSession f).session = s.session.map f := rfl
@[simp] theorem State.mapSession_sink : (s.mapSession f).sink = s.sink := rfl
@[simp] theorem State.mapSession_calls : (s.mapSession f).calls = s.calls := rfl
@[simp] theorem State.mapSession_events : (s.mapSession f).events = s.events := rfl
@[simp] theorem State.mapSession_results : (s.mapSession f).results = s.results := rfl
@[simp] theorem State.mapSession_hostCommands : (s.mapSession f).hostCommands = s.hostCommands := rfl
@[simp] theorem State.mapSession_procScript : (s.mapSession f).procScript = s.procScript := rfl
@[simp] theorem State.mapSession_procCount : (s.mapSession f).procCount = s.procCount := rfl
end Map

section Raise
variable (s : State) (e : Event)
@[simp] theorem State.raise_session : (s.raise e).session = s.session := rfl
@[simp] theorem State.raise_sink : (s.raise e).sink = s.sink := rfl
@[simp] theorem State.raise_calls : (s.raise e).calls = s.calls := rfl
@[simp] theorem State.raise_events : (s.raise e).events = s.events ++ [e] := rfl
@[simp] theorem State.raise_results : (s.raise e).results = s.results := rfl
@[simp] theorem State.raise_hostCommands : (s.raise e).hostCommands = s.hostCommands := rfl
@[simp] theorem State.raise_procScript : (s.raise e).procScript = s.procScript := rfl
@[simp] theorem State.raise_procCount : (s.raise e).procCount = s.procCount := rfl
end Raise

section Answer
variable (s : State) (v : Half)
@[simp] theorem State.answer_session : (s.answer v).session = s.session := rfl
@[simp] theorem State.answer_sink : (s.answer v).sink = s.sink := rfl
@[simp] theorem State.answer_calls : (s.answer v).calls = s.calls := rfl
@[simp] theorem State.answer_events : (s.answer v).events = s.events := rfl
@[simp] theorem State.answer_results : (s.answer v).results = s.results ++ [v] := rfl
@[simp] theorem State.answer_hostCommands : (s.answer v).hostCommands = s.hostCommands := rfl
@[simp] theorem State.answer_procScript : (s.answer v).procScript = s.procScript := rfl
@[simp] theorem State.answer_procCount : (s.answer v).procCount = s.procCount := rfl
end Answer

section LogCall
variable (s : State) (c : ProcCall)
@[simp] theorem State.logCall_session : (s.logCall c).session = s.session := rfl
@[simp] theorem State.logCall_sink : (s.logCall c).sink = s.sink := rfl
@[simp] theorem State.logCall_calls : (s.logCall c).calls = s.calls ++ [c] := rfl
@[simp] theorem State.logCall_events : (s.logCall c).events = s.events := rfl
@[simp] theorem State.logCall_results : (s.logCall c).results = s.results := rfl
@[simp] theorem State.logCall_hostCommands : (s.logCall c).hostCommands = s.hostCommands := rfl
@[simp] theorem State.logCall_procScript : (s.logCall c).procScript = s.procScript := rfl
@[simp] theorem State.logCall_procCount : (s.logCall c).procCount = s.procCount := rfl
end LogCall

section AfterTurn
variable (s : State)
@[simp] theorem afterTurn_session : (afterTurn s).session = s.session := by unfold afterTurn; split <;> rfl
@[simp] theorem afterTurn_sink : (afterTurn s).sink = s.sink := by unfold afterTurn; split <;> rfl
@[simp] theorem afterTurn_calls : (afterTurn s).calls = s.calls := by unfold afterTurn; split <;> rfl
@[simp] theorem afterTurn_events : (afterTurn s).events = s.events := by unfold afterTurn; split <;> rfl
@[simp] theorem afterTurn_results : (afterTurn s).results = s.results := by unfold afterTurn; split <;> rfl
@[simp] theorem afterTurn_hostCommands : (afterTurn s).hostCommands = s.hostCommands := by
  unfold afterTurn; split <;> rfl
end AfterTurn

/-- `emitAll` appends to the sink and changes nothing else. -/
theorem State.emitAll_eq (s : State) (bs : List Byte) : s.emitAll bs = { s with sink := s.sink ++ bs } := by
  induction bs generalizing s with
  | nil => simp [State.emitAll]
  | cons b rest ih => simp [State.emitAll, ih, State.emit]

section EmitAll
variable (s : State) (bs : List Byte)
@[simp] theorem State.emitAll_session : (s.emitAll bs).session = s.session := by simp [State.emitAll_eq]
@[simp] theorem State.emitAll_sink : (s.emitAll bs).sink = s.sink ++ bs := by simp [State.emitAll_eq]
@[simp] theorem State.emitAll_calls : (s.emitAll bs).calls = s.calls := by simp [State.emitAll_eq]
@[simp] theorem State.emitAll_events : (s.emitAll bs).events = s.events := by simp [State.emitAll_eq]
@[simp] theorem State.emitAll_results : (s.emitAll bs).results = s.results := by simp [State.emitAll_eq]
@[simp] theorem State.emitAll_hostCommands : (s.emitAll bs).hostCommands = s.hostCommands := by
  simp [State.emitAll_eq]
@[simp] theorem State.emitAll_procScript : (s.emitAll bs).procScript = s.procScript := by
  simp [State.emitAll_eq]
@[simp] theorem State.emitAll_procCount : (s.emitAll bs).procCount = s.procCount := by simp [State.emitAll_eq]
end EmitAll

/-- An operation that answers a next state had a session, and `f` answered it. -/
theorem withSession_next {s t : State} {f : Session → Host.Outcome State Fault Refusal}
    (h : withSession s f = .next t) : ∃ S, s.session = some S ∧ f S = .next t := by
  unfold withSession at h
  split at h
  · cases h
  · exact ⟨_, ‹_›, h⟩

theorem withSession_some {s : State} {S : Session} {f : Session → Host.Outcome State Fault Refusal}
    (h : s.session = some S) : withSession s f = f S := by simp [withSession, h]

/-- `andThen` answers a next state only when both parts do. -/
theorem andThen_next {o : Host.Outcome State Fault Refusal} {f : State → Host.Outcome State Fault Refusal}
    {t : State} (h : andThen o f = .next t) : ∃ u, o = .next u ∧ f u = .next t := by
  cases o with
  | next u => exact ⟨u, rfl, h⟩
  | fault r => cases h
  | refused r => cases h

end Sys2Proof.Machine
end

