-- ==== Sys2Proof/Laws/Effect.lean ====
section
/-! SUPPORT. What each shared operation can do, said once: if it answers a next state, one of these cases
holds; and from them, what any operation can do. -/

namespace Sys2Proof.Machine

/-! ## Transmission -/

/-- The octets a frame with this header and payload has in `TXB` (20_memory.md R57). -/
theorem read_buildHeader {txb : Memory} (h : txb.wf = true) (own peer : Byte) (payload : List Byte) (j : Nat) :
    (buildHeader txb own peer payload).read j =
      if hj : 3 ≤ j ∧ j - 3 < payload.length then payload[j - 3]'hj.2
      else if j = 2 then 0x13 else if j = 1 then peer else if j = 0 then own else txb.read j := by
  have h1 := Memory.write_wf h 0 own
  have h2 := Memory.write_wf h1 1 peer
  simp [buildHeader, Memory.read_fill (Memory.write_wf h2 2 _), Memory.read_write h2,
    Memory.read_write h1, Memory.read_write h]

theorem buildHeader_wf {txb : Memory} (h : txb.wf = true) (own peer : Byte) (payload : List Byte) :
    (buildHeader txb own peer payload).wf = true :=
  Memory.fill_wf (Memory.write_wf (Memory.write_wf (Memory.write_wf h _ _) _ _) _ _) _ _

/-- The checksum of a frame is computed over its header and payload as read back from `TXB`. -/
theorem slice_buildHeader {txb : Memory} (h : txb.wf = true) (own peer : Byte) (payload : List Byte) :
    (buildHeader txb own peer payload).slice 0 (3 + payload.length) = [own, peer, 0x13] ++ payload := by
  apply List.ext_getElem (by simp; omega)
  intro k hk hk'
  simp only [Memory.length_slice] at hk
  rw [Memory.getElem_slice, read_buildHeader h]
  match k with
  | 0 => simp
  | 1 => simp
  | 2 => simp
  | k + 3 => simp [show k < payload.length by omega]

theorem buildBody_wf {txb : Memory} (h : txb.wf = true) (own peer : Byte) (payload : List Byte) :
    (buildBody txb own peer payload).wf = true :=
  Memory.write_wf (Memory.write_wf (buildHeader_wf h own peer payload) _ _) _ _

/-- `TXB` after `TXFRAME` has built a body (44_tx_framer.md R182). -/
theorem read_buildBody {txb : Memory} (h : txb.wf = true) (own peer : Byte) (payload : List Byte) (j : Nat) :
    (buildBody txb own peer payload).read j =
      if j = 4 + payload.length then crcLo (crc16 ([own, peer, 0x13] ++ payload))
      else if j = 3 + payload.length then crcHi (crc16 ([own, peer, 0x13] ++ payload))
      else (buildHeader txb own peer payload).read j := by
  have hH := buildHeader_wf h own peer payload
  have hs : (buildHeader txb own peer payload).slice 0 (cfg.headerLen + payload.length) =
      [own, peer, 0x13] ++ payload := slice_buildHeader h own peer payload
  unfold buildBody
  simp only [hs]
  rw [Memory.read_write (Memory.write_wf hH _ _), Memory.read_write hH]
  simp only [show 3 + payload.length + 1 = 4 + payload.length by omega]

/-- The body read back from `TXB` (20_memory.md R57). -/
theorem slice_buildBody {txb : Memory} (h : txb.wf = true) (own peer : Byte) (payload : List Byte) :
    (buildBody txb own peer payload).slice 0 (5 + payload.length) =
      [own, peer, 0x13] ++ payload ++ [crcHi (crc16 ([own, peer, 0x13] ++ payload)),
        crcLo (crc16 ([own, peer, 0x13] ++ payload))] := by
  generalize hc : crc16 ([own, peer, 0x13] ++ payload) = c
  apply List.ext_getElem (by simp; omega)
  intro k hk hk'
  simp only [Memory.length_slice] at hk
  rw [Memory.getElem_slice, Nat.zero_add, read_buildBody h, hc]
  by_cases h4 : k = 4 + payload.length
  · subst h4
    rw [if_pos rfl, List.getElem_append_right (by simp; omega)]
    simp [show 4 + payload.length - (payload.length + 1 + 1 + 1) = 1 by omega]
  · rw [if_neg h4]
    by_cases h3 : k = 3 + payload.length
    · subst h3
      rw [if_pos rfl, List.getElem_append_right (by simp; omega)]
      simp [show 3 + payload.length - (payload.length + 1 + 1 + 1) = 0 by omega]
    · rw [if_neg h3, List.getElem_append_left (by simp; omega)]
      have hs := slice_buildHeader h own peer payload
      have hk3 : k < (3 + payload.length) := by omega
      have := Memory.getElem_slice (buildHeader txb own peer payload) 0 (3 + payload.length) k (by simpa using hk3)
      rw [Nat.zero_add] at this
      rw [← this]
      exact List.getElem_of_eq hs _

/-- What `TXFRAME` can do on a session. -/
theorem transmitFrame_next {payload : List Byte} {S : Session} {s t : State}
    (h : transmitFrame payload S s = .next t) :
    (251 < payload.length ∧ t = s.raise (.lenError payload.length)) ∨
    (payload.length ≤ 251 ∧ ∃ peer, S.peerSourceAddress = some peer ∧
      t = (s.putSession { S with txb := buildBody S.txb S.ownAddress peer payload }).emitAll
        (wireFrame ((buildBody S.txb S.ownAddress peer payload).slice 0 (5 + payload.length)))) := by
  unfold transmitFrame at h
  simp only at h
  split at h
  · injection h with h
    exact .inl ⟨‹_›, h.symm⟩
  · split at h
    · cases h
    · injection h with h
      exact .inr ⟨by omega, _, ‹_›, h.symm⟩

theorem transmitFrame_of_peer {payload : List Byte} {S : Session} {s : State} {peer : Byte}
    (hp : S.peerSourceAddress = some peer) (hl : payload.length ≤ 251) :
    transmitFrame payload S s =
      .next ((s.putSession { S with txb := buildBody S.txb S.ownAddress peer payload }).emitAll
        (wireFrame ((buildBody S.txb S.ownAddress peer payload).slice 0 (5 + payload.length)))) := by
  unfold transmitFrame
  simp only [hp]
  rw [if_neg (by omega)]

/-! ## Dispatch -/

/-- What the reply decision can do (43_dispatcher.md R167). -/
theorem sendReply_next {n : Int} {S : Session} {s t : State} (h : sendReply n S s = .next t) :
    (n ≤ 0 ∧ t = s) ∨ (251 < n ∧ t = s.raise (.lenError n.toNat)) ∨
    (0 < n ∧ n ≤ 251 ∧ transmitFrame (S.plb.slice 0 n.toNat) S s = .next t) := by
  unfold sendReply at h
  simp only at h
  split at h
  · injection h with h
    exact .inl ⟨‹_›, h.symm⟩
  · split at h
    · injection h with h
      exact .inr (.inl ⟨by omega, h.symm⟩)
    · exact .inr (.inr ⟨by omega, by omega, h⟩)

/-- The session the Payload Processor leaves of the accepted session `V`. -/
def Session.processed (V : Session) (a : ProcAnswer) : Session := { V with plb := V.plb.applyWrites a.writes }

/-- The state in which the reply decision is made. -/
def afterCall (s : State) (n : Nat) (V : Session) (a : ProcAnswer) : State :=
  ((afterTurn s).logCall ⟨n, V⟩).putSession (V.processed a)

/-- What `DISPATCH` can do (43_dispatcher.md R168). -/
theorem dispatchFrame_next {S : Session} {s t : State} (h : dispatchFrame S s = .next t) :
    5 ≤ S.receiveIndex ∧ S.receiveIndex ≤ 256 ∧
    ((S.passesFilter = false ∧ t = s) ∨
     (S.passesFilter = true ∧ S.extractFrame.checksumFails = true ∧
        t = (s.putSession S.extractFrame).raise .crcError) ∨
     (S.passesFilter = true ∧ S.extractFrame.checksumFails = false ∧ ∃ a, nextTurn s = .returns a ∧
        sendReply a.reply (S.extractFrame.accept.processed a)
          (afterCall s (S.receiveIndex - 5) S.extractFrame.accept a) = .next t)) := by
  unfold dispatchFrame at h
  simp only at h
  split at h
  · cases h
  · refine ⟨by omega, by omega, ?_⟩
    split at h
    · injection h with h
      exact .inl ⟨by simpa using ‹(!S.passesFilter) = true›, h.symm⟩
    · have hp : S.passesFilter = true := by simpa using ‹¬(!S.passesFilter) = true›
      split at h
      · injection h with h
        exact .inr (.inl ⟨hp, ‹_›, h.symm⟩)
      · refine .inr (.inr ⟨hp, by simpa using ‹¬S.extractFrame.checksumFails = true›, ?_⟩)
        unfold callProcessor at h
        split at h
        · cases h
        · exact ⟨_, ‹_›, h⟩

/-- `DISPATCH` of an accepted frame is the reply decision after the call. -/
theorem dispatchFrame_accepted {S : Session} {s : State} {a : ProcAnswer} (h5 : 5 ≤ S.receiveIndex)
    (h256 : S.receiveIndex ≤ 256) (hp : S.passesFilter = true) (hc : S.extractFrame.checksumFails = false)
    (ha : nextTurn s = .returns a) :
    dispatchFrame S s = sendReply a.reply (S.extractFrame.accept.processed a)
      (afterCall s (S.receiveIndex - 5) S.extractFrame.accept a) := by
  unfold dispatchFrame
  simp only
  rw [if_neg (by omega)]
  simp [hp, hc, callProcessor, ha, afterCall, Session.processed]

/-- What `DISPATCH` leaves of the session and of the environment, whatever it does (20_memory.md R51). -/
theorem dispatchFrame_session {S : Session} {s t : State} (hS : s.session = some S)
    (h : dispatchFrame S s = .next t) :
    ∃ T, t.session = some T ∧ T.rxb = S.rxb ∧ T.receiveIndex = S.receiveIndex ∧ T.state = S.state ∧
      T.ownAddress = S.ownAddress ∧ T.crcCheckEnable = S.crcCheckEnable ∧
      t.hostCommands = s.hostCommands ∧ t.results = s.results := by
  obtain ⟨_, _, ⟨_, rfl⟩ | ⟨_, _, rfl⟩ | ⟨_, _, a, _, h⟩⟩ := dispatchFrame_next h
  · exact ⟨S, hS, rfl, rfl, rfl, rfl, rfl, rfl, rfl⟩
  · exact ⟨_, rfl, rfl, rfl, rfl, rfl, rfl, rfl, rfl⟩
  · rcases sendReply_next h with ⟨_, rfl⟩ | ⟨_, rfl⟩ | ⟨_, _, h⟩
    · exact ⟨_, rfl, rfl, rfl, rfl, rfl, rfl, by simp [afterCall], by simp [afterCall]⟩
    · exact ⟨_, rfl, rfl, rfl, rfl, rfl, rfl, by simp [afterCall], by simp [afterCall]⟩
    · rcases transmitFrame_next h with ⟨_, rfl⟩ | ⟨_, _, _, rfl⟩
      · exact ⟨_, rfl, rfl, rfl, rfl, rfl, rfl, by simp [afterCall], by simp [afterCall]⟩
      · exact ⟨_, (State.emitAll_session _ _).trans rfl, rfl, rfl, rfl, rfl, rfl, by simp [afterCall],
          by simp [afterCall]⟩

theorem passesFilter_iff (S : Session) :
    S.passesFilter = true ↔ S.rxb.read 1 = S.ownAddress ∧ S.rxb.read 2 = 0x13 := by
  simp [Session.passesFilter, Session.frameDest, Session.frameControl]

theorem checksumFails_iff (S : Session) :
    S.extractFrame.checksumFails = true ↔ S.crcCheckEnable = true ∧
      crc16 (S.rxb.slice 0 (S.receiveIndex - 2)) ≠
        S.rxb.read (S.receiveIndex - 2) ++ S.rxb.read (S.receiveIndex - 1) := by
  simp [Session.checksumFails, Session.extractFrame, Session.checkedOctets, Session.claimedCrc, joinCrc]

/-! ## Reception -/

/-- A micro-operation that answers a next state was selected. -/
theorem whenSelected_next {s t : State} {cond : Session → Bool}
    {f : Session → Host.Outcome State Fault Refusal} (h : whenSelected s cond f = .next t) :
    ∃ S, s.session = some S ∧ cond S = true ∧ f S = .next t := by
  obtain ⟨S, hS, h⟩ := withSession_next h
  split at h
  · exact ⟨S, hS, ‹_›, h⟩
  · cases h

theorem whenSelected_some {s : State} {S : Session} {cond : Session → Bool}
    {f : Session → Host.Outcome State Fault Refusal} (hS : s.session = some S) (hc : cond S = true) :
    whenSelected s cond f = f S := by simp [whenSelected, withSession, hS, hc]

theorem whenSelected_not {s : State} {S : Session} {cond : Session → Bool}
    {f : Session → Host.Outcome State Fault Refusal} (hS : s.session = some S) (hc : cond S = false) :
    whenSelected s cond f = .refused .notSelected := by simp [whenSelected, withSession, hS, hc]

/-- `RXBYTE` runs one of the ten micro-operations (42_rx_assembler.md R141). -/
theorem execRxbyte_next {b : Byte} {s t : State} (h : execRxbyte b s = .next t) :
    execRxStart s = .next t ∨ execRxIdle b s = .next t ∨ execRxEsc s = .next t ∨ execRxFlagIdle s = .next t ∨
    execRxFlagDispatch s = .next t ∨ execRxFlagShort s = .next t ∨ execRxData b s = .next t ∨
    execRxOverrun b s = .next t ∨ execRxUnesc b s = .next t ∨ execRxUnescOverrun b s = .next t := by
  obtain ⟨S, _, h⟩ := withSession_next h
  split at h
  · split at h <;> simp [h]
  · split at h
    · simp [h]
    · split at h
      · simp [h]
      · split at h
        · simp [h]
        · split at h
          · simp [h]
          · split at h <;> simp [h]
  · split at h <;> simp [h]

/-! ## Any operation -/

/-- Of the session, only `state`, `receive_index` and the buffers differ, and AwaitingStart is not entered. -/
def assembles (S T : Session) : Prop :=
  T = { S with
        receiveIndex := T.receiveIndex
        state := T.state
        rxb := T.rxb
        txb := T.txb
        plb := T.plb } ∧
    (S.state ≠ .awaitingStart → T.state ≠ .awaitingStart)

/-- What an operation that needs a session can do to it. -/
inductive Effect (S : Session) (s t : State) : Prop where
  | nothing (h : t = s)
  | assembled (T : Session) (hT : assembles S T) (h : t = s.putSession T)
  | dispatched (h : dispatchFrame S s = .next t)
  | closed (u : State) (h : dispatchFrame S s = .next u) (ht : t = u.mapSession restartReceiving)
  | transmitted (payload : List Byte) (h : transmitFrame payload S s = .next t)
  | rejected (n : Nat) (h : t = s.raise (.lenError n))
  | emitted (bs : List Byte) (h : t = s.emitAll bs)

theorem restart_assembles (S : Session) : assembles S (restartReceiving S) :=
  ⟨rfl, fun _ => by simp [restartReceiving]⟩

/-- The effects of the ten micro-operations. -/
theorem micro_effect {s t : State} {b : Byte} {S : Session} (hS : s.session = some S)
    (h : execRxStart s = .next t ∨ execRxIdle b s = .next t ∨ execRxEsc s = .next t ∨
      execRxFlagIdle s = .next t ∨ execRxFlagDispatch s = .next t ∨ execRxFlagShort s = .next t ∨
      execRxData b s = .next t ∨ execRxOverrun b s = .next t ∨ execRxUnesc b s = .next t ∨
      execRxUnescOverrun b s = .next t) : Effect S s t := by
  rcases h with h | h | h | h | h | h | h | h | h | h <;>
    obtain ⟨S', hS', hc, h⟩ := whenSelected_next h <;>
    obtain rfl : S = S' := Option.some.inj (hS.symm.trans hS')
  · injection h with h; exact .assembled _ (restart_assembles S) h.symm
  · injection h with h; exact .nothing h.symm
  · injection h with h; exact .assembled _ ⟨rfl, by simp⟩ h.symm
  · injection h with h; exact .nothing h.symm
  · obtain ⟨u, hu, ht⟩ := andThen_next h
    injection ht with ht
    exact .closed u hu ht.symm
  · injection h with h; exact .assembled _ (restart_assembles S) h.symm
  · injection h with h; exact .assembled (S.storeReceived b) ⟨rfl, id⟩ h.symm
  · injection h with h; exact .assembled _ (restart_assembles S) h.symm
  · injection h with h; exact .assembled _ ⟨rfl, by simp⟩ h.symm
  · injection h with h; exact .assembled _ (restart_assembles S) h.symm

/-- What any operation can do: INIT makes a new session, CRC16 answers, ENCBYTE emits, and every other one has
an effect on the session there is. -/
theorem exec_next {i : Instr} {s t : State} (h : exec i s = .next t) :
    (∃ own en, i = .init own en ∧ t = s.putSession (initialSession own en)) ∨
    (∃ bytes, i = .crc16 bytes ∧ t = s.answer (crc16 bytes)) ∨
    (∃ b, i = .encbyte b ∧ t = s.emitAll (encodeByte b)) ∨
    ∃ S, s.session = some S ∧ Effect S s t := by
  have micro : ∀ {b : Byte}, (execRxStart s = .next t ∨ execRxIdle b s = .next t ∨ execRxEsc s = .next t ∨
      execRxFlagIdle s = .next t ∨ execRxFlagDispatch s = .next t ∨ execRxFlagShort s = .next t ∨
      execRxData b s = .next t ∨ execRxOverrun b s = .next t ∨ execRxUnesc b s = .next t ∨
      execRxUnescOverrun b s = .next t) → ∃ S, s.session = some S ∧ Effect S s t := by
    intro b h
    have : ∃ S, s.session = some S := by
      rcases h with h | h | h | h | h | h | h | h | h | h <;>
        exact (whenSelected_next h).imp fun _ h => h.1
    obtain ⟨S, hS⟩ := this
    exact ⟨S, hS, micro_effect hS h⟩
  cases i with
  | rxStart => exact .inr (.inr (.inr (micro (b := 0) (.inl h))))
  | rxIdle b => exact .inr (.inr (.inr (micro (b := b) (by simp [show execRxIdle b s = .next t from h]))))
  | rxEsc => exact .inr (.inr (.inr (micro (b := 0) (by simp [show execRxEsc s = .next t from h]))))
  | rxFlagIdle => exact .inr (.inr (.inr (micro (b := 0) (by simp [show execRxFlagIdle s = .next t from h]))))
  | rxFlagDispatch =>
    exact .inr (.inr (.inr (micro (b := 0) (by simp [show execRxFlagDispatch s = .next t from h]))))
  | rxFlagShort => exact .inr (.inr (.inr (micro (b := 0) (by simp [show execRxFlagShort s = .next t from h]))))
  | rxData b => exact .inr (.inr (.inr (micro (b := b) (by simp [show execRxData b s = .next t from h]))))
  | rxOverrun b => exact .inr (.inr (.inr (micro (b := b) (by simp [show execRxOverrun b s = .next t from h]))))
  | rxUnesc b => exact .inr (.inr (.inr (micro (b := b) (by simp [show execRxUnesc b s = .next t from h]))))
  | rxUnescOverrun b =>
    exact .inr (.inr (.inr (micro (b := b) (by simp [show execRxUnescOverrun b s = .next t from h]))))
  | dispatch source dest control =>
    obtain ⟨S, hS, h⟩ := withSession_next h
    split at h
    · exact .inr (.inr (.inr ⟨S, hS, .dispatched h⟩))
    · cases h
  | init own en => injection h with h; exact .inl ⟨own, en, rfl, h.symm⟩
  | rxbyte b => exact .inr (.inr (.inr (micro (execRxbyte_next h))))
  | txframe payload =>
    obtain ⟨S, hS, h⟩ := withSession_next h
    exact .inr (.inr (.inr ⟨S, hS, .transmitted payload h⟩))
  | txraw payload =>
    obtain ⟨S, hS, h⟩ := withSession_next h
    split at h <;> injection h with h
    · exact .inr (.inr (.inr ⟨S, hS, .rejected _ h.symm⟩))
    · exact .inr (.inr (.inr ⟨S, hS, .emitted _ h.symm⟩))
  | crc16 bytes => injection h with h; exact .inr (.inl ⟨bytes, rfl, h.symm⟩)
  | encbyte b => injection h with h; exact .inr (.inr (.inl ⟨b, rfl, h.symm⟩))

/-- What a step can do (92_eei_decisions.md D1): idle, or the operation of the host's next command. -/
theorem step_next {s t : State} (h : step s = .next t) :
    (s.hostCommands = [] ∧ t = s) ∨
    ∃ c rest i, s.hostCommands = c :: rest ∧ decodeCommand c = .ok i ∧
      exec i { s with hostCommands := rest } = .next t := by
  unfold step at h
  split at h
  · injection h with h; exact .inl ⟨‹_›, h.symm⟩
  · split at h
    · exact .inr ⟨_, _, _, ‹_›, ‹_›, h⟩
    · cases h

end Sys2Proof.Machine
end

