-- ==== Sys2Proof/Laws/PerInstr.lean ====
section
/-! SUPPORT. Family RowMatch: the word of a well-formed operation has the bits its row of opcode_table.json
fixes. The rows stand here as data, copied from the table, apart from the encoder. -/

namespace Sys2Proof.Laws.RowMatch

/-- A row's width, mask and match, as opcode_table.json gives them. -/
structure Row where
  width : Nat
  mask : Nat
  pat : Nat
  deriving DecidableEq, Repr

/-- The row of an operation. -/
def row : Instr → Row
  | .rxStart => ⟨10, 0x3FF, 0x07E⟩
  | .rxIdle _ => ⟨10, 0x300, 0x000⟩
  | .rxEsc => ⟨10, 0x3FF, 0x17D⟩
  | .rxFlagIdle => ⟨10, 0x3FF, 0x17E⟩
  | .rxFlagDispatch => ⟨10, 0x3FF, 0x17E⟩
  | .rxFlagShort => ⟨10, 0x3FF, 0x17E⟩
  | .rxData _ => ⟨10, 0x300, 0x100⟩
  | .rxOverrun _ => ⟨10, 0x300, 0x100⟩
  | .rxUnesc _ => ⟨10, 0x300, 0x200⟩
  | .rxUnescOverrun _ => ⟨10, 0x300, 0x200⟩
  | .dispatch _ _ _ => ⟨24, 0x0000FF, 0x000013⟩
  | .init _ _ => ⟨3, 0x7, 0x0⟩
  | .rxbyte _ => ⟨3, 0x7, 0x1⟩
  | .txframe _ => ⟨3, 0x7, 0x2⟩
  | .txraw _ => ⟨3, 0x7, 0x3⟩
  | .crc16 _ => ⟨3, 0x7, 0x4⟩
  | .encbyte _ => ⟨3, 0x7, 0x5⟩

/-- The width of a word's format. -/
def width : Word → Nat
  | .rxw _ => 10
  | .framehdr _ => 24
  | .cmd _ => 3

/-- A word's bits as a number; a command's are its op code. -/
def bits : Word → Nat
  | .rxw w => w.toNat
  | .framehdr w => w.toNat
  | .cmd c => c.op.toNat

/-- The word of a well-formed operation has its row's width and matches its row's pattern. -/
def Statement (i : Instr) : Prop :=
  i.wf = true → width (encode i) = (row i).width ∧ bits (encode i) &&& (row i).mask = (row i).pat

theorem low_octet (b : Byte) (c : BitVec 2) : (c ++ b : BitVec 10).toNat &&& 0x300 = c.toNat * 0x100 := by
  have h : ∀ (c : BitVec 2) (b : Byte), (c ++ b : BitVec 10).toNat &&& 0x300 = c.toNat * 0x100 := by
    decide +kernel
  exact h c b

theorem rxStart : Statement .rxStart := fun _ => ⟨rfl, rfl⟩
theorem rxIdle (b : Byte) : Statement (.rxIdle b) := fun _ => ⟨rfl, low_octet b 0⟩
theorem rxEsc : Statement .rxEsc := fun _ => ⟨rfl, rfl⟩
theorem rxFlagIdle : Statement .rxFlagIdle := fun _ => ⟨rfl, rfl⟩
theorem rxFlagDispatch : Statement .rxFlagDispatch := fun _ => ⟨rfl, rfl⟩
theorem rxFlagShort : Statement .rxFlagShort := fun _ => ⟨rfl, rfl⟩
theorem rxData (b : Byte) : Statement (.rxData b) := fun _ => ⟨rfl, low_octet b 1⟩
theorem rxOverrun (b : Byte) : Statement (.rxOverrun b) := fun _ => ⟨rfl, low_octet b 1⟩
theorem rxUnesc (b : Byte) : Statement (.rxUnesc b) := fun _ => ⟨rfl, low_octet b 2⟩
theorem rxUnescOverrun (b : Byte) : Statement (.rxUnescOverrun b) := fun _ => ⟨rfl, low_octet b 2⟩

theorem dispatch (source dest control : Byte) : Statement (.dispatch source dest control) := by
  intro h
  have hc : control = 0x13 := by simpa [Instr.wf] using h
  subst hc
  refine ⟨rfl, ?_⟩
  show (source ++ dest ++ 0x13#8 : BitVec 24).toNat &&& (2 ^ 8 - 1) = 0x13
  rw [Nat.and_two_pow_sub_one_eq_mod, BitVec.toNat_append, ← Nat.shiftLeft_add_eq_or_of_lt (by decide),
    Nat.shiftLeft_eq, Nat.mul_comm, Nat.mul_add_mod]
  rfl

theorem init (ownAddr : Byte) (crcEn : Bool) : Statement (.init ownAddr crcEn) := fun _ =>
  ⟨rfl, show (0#3).toNat &&& 0x7 = 0x0 by decide⟩
theorem rxbyte (b : Byte) : Statement (.rxbyte b) := fun _ =>
  ⟨rfl, show (1#3).toNat &&& 0x7 = 0x1 by decide⟩
theorem txframe (payload : List Byte) : Statement (.txframe payload) := fun _ =>
  ⟨rfl, show (2#3).toNat &&& 0x7 = 0x2 by decide⟩
theorem txraw (payload : List Byte) : Statement (.txraw payload) := fun _ =>
  ⟨rfl, show (3#3).toNat &&& 0x7 = 0x3 by decide⟩
theorem crc16 (bytes : List Byte) : Statement (.crc16 bytes) := fun _ =>
  ⟨rfl, show (4#3).toNat &&& 0x7 = 0x4 by decide⟩
theorem encbyte (b : Byte) : Statement (.encbyte b) := fun _ =>
  ⟨rfl, show (5#3).toNat &&& 0x7 = 0x5 by decide⟩

end Sys2Proof.Laws.RowMatch
end

