-- ==== Sys2Proof/Laws/Run.lean ====
section
/-! SUPPORT. Runs of the core, one step at a time, and cut at any step. -/

namespace Sys2Proof.Machine

theorem run_zero (s : State) : Host.Core.run Sys2Proof.core 0 s = .next s := rfl

theorem run_next {n : Nat} {s u : State} (h : step s = .next u) :
    Host.Core.run Sys2Proof.core (n + 1) s = Host.Core.run Sys2Proof.core n u := by
  refine (Host.Core.run.eq_2 Sys2Proof.core s n).trans ?_
  have e : Sys2Proof.core.step s = .next u := h
  rw [e]

theorem run_refused {n : Nat} {s : State} {r : Refusal} (h : step s = .refused r) :
    Host.Core.run Sys2Proof.core (n + 1) s = .refused r := by
  refine (Host.Core.run.eq_2 Sys2Proof.core s n).trans ?_
  have e : Sys2Proof.core.step s = .refused r := h
  rw [e]

/-- A run of `n + m` steps is a run of `m` steps from where `n` steps lead. -/
theorem run_add {n m : Nat} {s u : State} (h : Host.Core.run Sys2Proof.core n s = .next u) :
    Host.Core.run Sys2Proof.core (n + m) s = Host.Core.run Sys2Proof.core m u := by
  induction n generalizing s with
  | zero => injection h with h; subst h; rw [Nat.zero_add]
  | succ n ih =>
    rw [show n + 1 + m = (n + m) + 1 by omega]
    cases e : step s with
    | next v => rw [run_next e] at h ⊢; exact ih h
    | fault r => cases r
    | refused r => rw [run_refused e] at h; cases h

/-- One octet fed by the host is one RXBYTE. -/
theorem run_feed {s t : State} {b : Byte} {rest : List Byte}
    (h : execRxbyte b { s with hostCommands := rest.map receiveCommand } = .next t) :
    Host.Core.run Sys2Proof.core 1 (s.feed (b :: rest)) = .next t := by
  have e : step (s.feed (b :: rest)) = .next t := h
  rw [run_next e, run_zero]

end Sys2Proof.Machine
end

