-- ==== Sys2Proof/Tests/Slice0.lean ====
section
/-! SUPPORT. Tests of the model, one step each, with expected results from 95_test_vectors.md or by hand from
the rule named; ill-formed terms that the check refuses; words written out bit by bit; and for every statement
with hypotheses a theorem `witness_<Name>` that meets them together, each clause at a boundary value. -/

namespace Sys2Proof.Tests

open Sys2Proof.Machine

/-! ## Small states -/

/-- The session after `INIT own=01` with the given `state`, and `octets` assembled in RXB. -/
def sample (st : RxState) (octets : List Byte) : Session :=
  { initialSession 0x01 true with
    state := st
    receiveIndex := octets.length
    rxb := Memory.cleared.fill 0 octets }

/-- A session with an index only. -/
def atIndex (st : RxState) (index : Nat) : Session :=
  { initialSession 0x01 true with state := st, receiveIndex := index }

/-- A session that has accepted a frame from `peer`. -/
def withPeer (own peer : Byte) : Session :=
  { initialSession own true with
    peerSourceAddress := some peer
    controlByte := some 0x13
    expectedCrc := some 0x0000 }

/-- The state that holds `S` and nothing else. -/
def holding (S : Session) : State := { State.powerOn with session := some S }

/-- `holding S` with one turn of the Payload Processor ahead. -/
def scripted (S : Session) (a : ProcAnswer) : State := { holding S with procScript := [.returns a] }

/-- The next state of an outcome, if it is one. -/
def nextState : Host.Outcome State Fault Refusal → Option State
  | .next s => some s
  | .fault _ => none
  | .refused _ => none

/-- A field of the session of the next state. -/
def sessionField {α : Type} (f : Session → α) (o : Host.Outcome State Fault Refusal) : Option α :=
  ((nextState o).bind State.session).map f

/-- The refusal of an outcome, if it is one. -/
def refusalOf : Host.Outcome State Fault Refusal → Option Refusal
  | .next _ => none
  | .fault _ => none
  | .refused r => some r

/-- The body of the source's scenario S7. -/
def frameS7 : List Byte := [0x02, 0x01, 0x13, 0x41, 0x8C, 0xFF]

/-- The body of scenario S8: one bit of the checksum flipped. -/
def frameS8 : List Byte := [0x02, 0x01, 0x13, 0x41, 0x8C, 0xFE]

/-! ## WellFormed refuses -/

theorem test_wf_idle_flag : (Instr.rxIdle 0x7E).wf = false := by decide
theorem test_wf_data_flag : (Instr.rxData 0x7E).wf = false := by decide
theorem test_wf_data_esc : (Instr.rxData 0x7D).wf = false := by decide
theorem test_wf_overrun_flag : (Instr.rxOverrun 0x7E).wf = false := by decide
theorem test_wf_overrun_esc : (Instr.rxOverrun 0x7D).wf = false := by decide
theorem test_wf_dispatch_control : (Instr.dispatch 0x02 0x01 0x12).wf = false := by decide
theorem test_wf_accepts : (Instr.rxIdle 0x7D).wf = true ∧ (Instr.rxUnesc 0x7E).wf = true ∧
    (Instr.dispatch 0x7E 0x7D 0x13).wf = true := by decide

/-! ## Words written out bit by bit (30_encoding.md R88, R89, R90) -/

theorem test_decode_rxStart : decodeRx 0b0001111110 256 = .ok .rxStart := by decide
theorem test_decode_rxIdle : decodeRx 0b0001111101 0 = .ok (.rxIdle 0x7D) := by decide
theorem test_decode_rxEsc : decodeRx 0b0101111101 0 = .ok .rxEsc := by decide
theorem test_decode_rxFlagIdle : decodeRx 0b0101111110 0 = .ok .rxFlagIdle := by decide
theorem test_decode_rxFlagDispatch : decodeRx 0b0101111110 256 = .ok .rxFlagDispatch := by decide
theorem test_decode_rxFlagShort : decodeRx 0b0101111110 1 = .ok .rxFlagShort := by decide
theorem test_decode_rxData : decodeRx 0b0110000001 0 = .ok (.rxData 0x81) := by decide
theorem test_decode_rxOverrun : decodeRx 0b0110000001 256 = .ok (.rxOverrun 0x81) := by decide
theorem test_decode_rxUnesc : decodeRx 0b1001111110 0 = .ok (.rxUnesc 0x7E) := by decide
theorem test_decode_rxUnescOverrun : decodeRx 0b1000000001 256 = .ok (.rxUnescOverrun 0x01) := by
  decide
theorem test_decode_dispatch : decodeHeader 0b111111100000000100010011 = .ok (.dispatch 0xFE 0x01 0x13) := by
  decide
theorem test_decode_init : decodeCommand ⟨0b000, [0x05, 0x01]⟩ = .ok (.init 0x05 true) := by decide
theorem test_decode_init_default : decodeCommand ⟨0b000, [0x05]⟩ = .ok (.init 0x05 true) := by decide
theorem test_decode_rxbyte : decodeCommand ⟨0b001, [0x41]⟩ = .ok (.rxbyte 0x41) := by decide
theorem test_decode_txframe : decodeCommand ⟨0b010, [0x20]⟩ = .ok (.txframe [0x20]) := by decide
theorem test_decode_txraw : decodeCommand ⟨0b011, [0x7E, 0x7D]⟩ = .ok (.txraw [0x7E, 0x7D]) := by
  decide
theorem test_decode_crc16 : decodeCommand ⟨0b100, []⟩ = .ok (.crc16 []) := by decide
theorem test_decode_encbyte : decodeCommand ⟨0b101, [0x5E]⟩ = .ok (.encbyte 0x5E) := by decide

/-- Words that stand for no operation (30_encoding.md R91), and operands a command does not take. -/
theorem test_decode_rejects :
    decodeRx 0b1101000001 0 = .error .stateCode ∧ decodeRx 0b0101000001 257 = .error .indexRange ∧
    decodeHeader 0b000000100000000100000011 = .error .headerIgnored ∧
    decodeCommand ⟨0b110, []⟩ = .error (.reservedOp 6) ∧ decodeCommand ⟨0b111, [0x01]⟩ = .error (.reservedOp 7) ∧
    decodeCommand ⟨0b001, []⟩ = .error (.badOperands 1) ∧
    decodeCommand ⟨0b000, [0x01, 0x02]⟩ = .error (.badOperands 0) := by decide

/-- The table's words as the host of the checks numbers them. -/
theorem test_table_words :
    decodeTableWord 16 0x07E = some .rxStart ∧ decodeTableWord 16 0x17D = some .rxEsc ∧
    decodeTableWord 16 0x17E = some .rxFlagIdle ∧ decodeTableWord 16 0x241 = some (.rxUnesc 0x41) ∧
    decodeTableWord 16 0x341 = none ∧ decodeTableWord 24 0x020113 = some (.dispatch 0x02 0x01 0x13) ∧
    decodeTableWord 8 0x0 = some (.init 0x00 false) ∧ decodeTableWord 8 0x1 = some (.rxbyte 0x00) ∧
    decodeTableWord 8 0x2 = some (.txframe []) ∧ decodeTableWord 8 0x3 = some (.txraw []) ∧
    decodeTableWord 8 0x4 = some (.crc16 []) ∧ decodeTableWord 8 0x5 = some (.encbyte 0x00) ∧
    decodeTableWord 8 0x6 = none := by decide

/-- A placed receive word is the one the next step runs: RX.START from reset (V-RX-3). -/
theorem test_placed_start :
    sessionField Session.state (step (State.reset.withFetchWord 16 0x07E)) = some .receivingData := by
  decide

/-! ## CRC Engine and codec -/

/-- V-CRC-7. -/
theorem test_crc16_check :
    (nextState (exec (.crc16 [0x31, 0x32, 0x33, 0x34, 0x35, 0x36, 0x37, 0x38, 0x39]) State.powerOn)).map
      State.results = some [0x6F91] := by decide +kernel

/-- V-CRC-18. -/
theorem test_crc16_reserved :
    (nextState (exec (.crc16 [0x7E, 0x7D]) State.reset)).map State.results = some [0x320E] := by decide +kernel

/-- V-CRC-4: the eight values of the register. -/
theorem test_crc_shifts :
    crcShift 0xFFFE = 0x7FFF ∧ crcShift 0x7FFF = 0xBBF7 ∧ crcShift 0xBBF7 = 0xD9F3 ∧ crcShift 0xD9F3 = 0xE8F1 ∧
    crcShift 0xE8F1 = 0xF070 ∧ crcShift 0xF070 = 0x7838 ∧ crcShift 0x7838 = 0x3C1C ∧
    crcShift 0x3C1C = 0x1E0E := by decide

/-- V-ENC-1. -/
theorem test_encbyte_flag :
    (nextState (exec (.encbyte 0x7E) State.powerOn)).map State.sink = some [0x7D, 0x5E] := by decide

/-- V-ENC-4. -/
theorem test_encbyte_plain :
    (nextState (exec (.encbyte 0x5D) State.powerOn)).map State.sink = some [0x5D] := by decide

/-- V-DEC-1 to V-DEC-6, and S1. -/
theorem test_unescape :
    unescape 0x5E = 0x7E ∧ unescape 0x7E = 0x5E ∧ unescape 0x7D = 0x5D ∧ unescape 0x00 = 0x20 ∧
    encodeBytes [0x01, 0x7D, 0x20, 0x5E, 0x7E, 0x5D] = [0x01, 0x7D, 0x5D, 0x20, 0x5E, 0x7D, 0x5E, 0x5D] := by
  decide

/-! ## Receive Assembler -/

/-- V-RX-3, with buffers to clear. -/
theorem test_rxStart :
    sessionField (fun S => (S.state, S.receiveIndex, S.plb)) (exec .rxStart
      (holding { initialSession 0x01 true with plb := [(3, 0x41)] })) = some (.receivingData, 0, []) := by
  decide

/-- V-RX-2: an ESC while idle arms nothing. -/
theorem test_rxIdle_esc : exec (.rxIdle 0x7D) State.reset = .next State.reset := rfl

/-- V-RX-15: no capacity test on ESC. -/
theorem test_rxEsc_full :
    sessionField (fun S => (S.state, S.receiveIndex)) (exec .rxEsc (holding (atIndex .receivingData 256))) =
      some (.processingEscape, 256) := by decide

/-- V-RX-4. -/
theorem test_rxFlagIdle : exec .rxFlagIdle (holding (sample .receivingData [])) =
    .next (holding (sample .receivingData [])) := rfl

/-- V-RX-7: five octets are too short, although the frame is a correct one. -/
theorem test_rxFlagShort_five :
    sessionField (fun S => (S.receiveIndex, S.rxb, S.peerSourceAddress)) (exec .rxFlagShort
      (holding (sample .receivingData [0x02, 0x01, 0x13, 0xB7, 0x49]))) = some (0, [], none) := by decide

/-- V-RX-8 and V-DISP-1: one call, the peer is taken, the session is reset. -/
theorem test_rxFlagDispatch_accepted :
    sessionField (fun S => (S.peerSourceAddress, S.controlByte, S.expectedCrc, S.receiveIndex))
      (exec .rxFlagDispatch (scripted (sample .receivingData frameS7) ⟨[], 0⟩)) =
    some (some 0x02, some 0x13, some 0x8CFF, 0) := by decide +kernel

/-- P1: the reply of scenario S7. -/
theorem test_rxFlagDispatch_reply :
    (nextState (exec .rxFlagDispatch (scripted (sample .receivingData frameS7) ⟨[(0, 0x01), (1, 0xAA)], 2⟩))).map
      State.sink = some [0x7E, 0x01, 0x02, 0x13, 0x01, 0xAA, 0x7B, 0xC3, 0x7E] := by decide +kernel

/-- V-RX-5: the octet is stored at the index. -/
theorem test_rxData :
    sessionField (fun S => (S.rxb, S.receiveIndex)) (exec (.rxData 0x02) (holding (sample .receivingData []))) =
      some ([(0, 0x02)], 1) := by decide

/-- V-RX-14: the octet is dropped. -/
theorem test_rxOverrun :
    sessionField (fun S => (S.state, S.receiveIndex, S.rxb)) (exec (.rxOverrun 0x11)
      (holding { atIndex .receivingData 256 with rxb := [(0, 0x11), (255, 0x11)] })) =
      some (.receivingData, 0, []) := by decide

/-- V-RX-11: FLAG after ESC is data. -/
theorem test_rxUnesc_flag :
    sessionField (fun S => (S.rxb, S.receiveIndex, S.state)) (exec (.rxUnesc 0x7E)
      (holding (sample .processingEscape [0x02]))) = some ([(0, 0x02), (1, 0x5E)], 2, .receivingData) := by
  decide

/-- V-RX-16: the FLAG is consumed. -/
theorem test_rxUnescOverrun :
    sessionField (fun S => (S.state, S.receiveIndex)) (exec (.rxUnescOverrun 0x7E)
      (holding (atIndex .processingEscape 256))) = some (.receivingData, 0) := by decide

/-- V-RX-9: RXBYTE of ESC. -/
theorem test_rxbyte_esc :
    sessionField Session.state (exec (.rxbyte 0x7D) (holding (sample .receivingData [0x02]))) =
      some .processingEscape := by decide

/-- V-RX-17: 256 octets for another node, closed and ignored. -/
theorem test_rxbyte_full_frame :
    sessionField (fun S => (S.receiveIndex, S.peerSourceAddress)) (exec (.rxbyte 0x7E)
      (holding (atIndex .receivingData 256))) = some (0, none) := by decide

/-! ## Frame Dispatcher -/

/-- V-DISP-7: the checksum does not match. -/
theorem test_dispatch_crc_error :
    (nextState (exec (.dispatch 0x02 0x01 0x13) (scripted (sample .receivingData frameS8) ⟨[], 1⟩))).map
      (fun t => (t.events, t.sink, t.calls, t.session.bind Session.expectedCrc)) =
    some ([.crcError], [], [], some 0x8CFE) := by decide +kernel

/-- V-DISP-10: a reply of 252 octets. -/
theorem test_dispatch_len_error :
    (nextState (exec (.dispatch 0x02 0x01 0x13) (scripted (sample .receivingData frameS7) ⟨[], 252⟩))).map
      (fun t => (t.events, t.sink, t.calls.map ProcCall.n)) = some ([.lenError 252], [], [1]) := by decide +kernel

/-! ## Transmit Framer -/

/-- V-TX-2: both addresses are escaped. -/
theorem test_txframe_escaped :
    (nextState (exec (.txframe [0x20]) (holding (withPeer 0x7E 0x7D)))).map State.sink =
      some [0x7E, 0x7D, 0x5E, 0x7D, 0x5D, 0x13, 0x20, 0x16, 0x7A, 0x7E] := by decide +kernel

/-- V-TX-7 and V-TX-6: the length check comes first, then the missing peer. -/
theorem test_txframe_checks :
    (nextState (exec (.txframe (List.replicate 252 0x00)) State.reset)).map State.events = some [.lenError 252] ∧
    refusalOf (exec (.txframe [0x41]) State.reset) = some .noPeer := by decide +kernel

/-- V-RAW-3. -/
theorem test_txraw_escaped :
    (nextState (exec (.txraw [0x7E, 0x7D]) State.reset)).map State.sink =
      some [0x7E, 0x7D, 0x5E, 0x7D, 0x5D, 0x32, 0x0E, 0x7E] := by decide +kernel

/-- V-RAW-5. -/
theorem test_txraw_long :
    (nextState (exec (.txraw (List.replicate 255 0x00)) State.reset)).map (fun t => (t.events, t.sink)) =
      some ([.lenError 255], []) := by decide +kernel

/-! ## INIT and the status port -/

/-- V-INIT-2: the partial frame is gone. -/
theorem test_init_again :
    sessionField (fun S => (S.state, S.receiveIndex, S.rxb, S.ownAddress, S.crcCheckEnable))
      (exec (.init 0x05 false) (holding (sample .receivingData [0x02, 0x01]))) =
    some (.awaitingStart, 0, [], 0x05, false) := by decide

/-- 92_eei_decisions.md D29. -/
theorem test_status_codes :
    statusCode none = 0 ∧ statusCode (some .crcError) = 1 ∧ statusCode (some (.lenError 252)) = 2 := by decide

/-! ## Witnesses: encoding and steps -/

theorem witness_DecodeOfEncodeIsIdentity :
    (Instr.rxFlagShort.wf = true ∧ Instr.rxFlagShort.indexCondition 5 = true) ∧
    Instr.rxFlagShort.indexCondition 1 = true ∧ Instr.rxFlagDispatch.indexCondition 6 = true ∧
    ((Instr.rxData 0xFF).wf = true ∧ (Instr.rxData 0xFF).indexCondition 255 = true) ∧
    (Instr.rxOverrun 0xFF).indexCondition 256 = true ∧ (Instr.rxUnesc 0x7E).indexCondition 255 = true ∧
    (Instr.dispatch 0xFF 0x00 0x13).wf = true ∧ (Instr.txframe []).wf = true := by decide

theorem witness_ReceiveWordDecodesExactly :
    encode (.rxData 0x41) = .rxw 0x141 ∧ (Instr.rxData 0x41).wf = true ∧
    (Instr.rxData 0x41).indexCondition 255 = true ∧ decodeRx 0x141 255 = .ok (.rxData 0x41) := by decide

/-- The host about to issue `c`. -/
def issuing (c : Command) : State := { State.reset with hostCommands := [c] }

theorem witness_ReservedWordsAreRefused :
    (issuing ⟨6, []⟩).hostCommands = [⟨6, []⟩] ∧ (issuing ⟨7, [0x41]⟩).hostCommands = [⟨7, [0x41]⟩] ∧
    (0x12 : Byte) ≠ 0x13 := by decide

theorem witness_StepRunsDecodedCommand :
    ((issuing ⟨5, [0x41]⟩).hostCommands = [⟨5, [0x41]⟩] ∧ decodeCommand ⟨5, [0x41]⟩ = .ok (.encbyte 0x41)) ∧
    ((issuing ⟨5, []⟩).hostCommands = [⟨5, []⟩] ∧ decodeCommand ⟨5, []⟩ = .error (.badOperands 5)) ∧
    State.reset.hostCommands = [] := by decide

theorem witness_EscapedSequenceIsTransparent :
    (encodeBytes [0x7E, 0x7D])[0]? = some (0x7D : Byte) ∧ (encodeBytes [0x7E, 0x7D])[1]? = some (0x5E : Byte) ∧
    (encodeBytes [0x7E, 0x7D])[2]? = some (0x7D : Byte) ∧
    (encodeBytes [0x7E, 0x7D])[3]? = some (0x5D : Byte) := by decide

/-! ## Witnesses: Receive Assembler -/

theorem witness_RxbyteRunsTheOneSelected :
    (atIndex .receivingData 256).receiveIndex ≤ 256 ∧
    (holding (atIndex .receivingData 256)).session = some (atIndex .receivingData 256) ∧
    (holding (atIndex .processingEscape 256)).session = some (atIndex .processingEscape 256) ∧
    (holding (atIndex .awaitingStart 0)).session = some (atIndex .awaitingStart 0) := by decide

/-- Unselected by the state, by the index on both sides of each bound, by the operation's own octet; and a header
that is not the one in RXB. -/
theorem witness_UnselectedOperationIsRefused :
    let rd := atIndex .receivingData
    let pe := atIndex .processingEscape
    let S := sample .receivingData frameS7
    (holding S).session = some S ∧
    (isReceive .rxStart = true ∧ ∀ b, ¬ selectedBy S b .rxStart) ∧
    (∀ b, ¬ selectedBy (sample .awaitingStart []) b (.rxIdle 0x7E)) ∧
    (∀ b, ¬ selectedBy (rd 3) b .rxFlagIdle) ∧ (∀ b, ¬ selectedBy (rd 5) b .rxFlagDispatch) ∧
    (∀ b, ¬ selectedBy (rd 0) b .rxFlagShort) ∧ (∀ b, ¬ selectedBy (rd 6) b .rxFlagShort) ∧
    (∀ b, ¬ selectedBy (rd 0) b (.rxData 0x7E)) ∧ (∀ b, ¬ selectedBy (rd 256) b (.rxData 0x41)) ∧
    (∀ b, ¬ selectedBy (rd 255) b (.rxOverrun 0x41)) ∧ (∀ b, ¬ selectedBy (pe 256) b (.rxUnesc 0x41)) ∧
    (∀ b, ¬ selectedBy (pe 255) b (.rxUnescOverrun 0x41)) ∧
    ((0x01, 0x01, 0x13) : Byte × Byte × Byte) ≠ (S.rxb.read 0, S.rxb.read 1, S.rxb.read 2) := by
  refine ⟨rfl, ⟨rfl, ?_⟩, ?_, ?_, ?_, ?_, ?_, ?_, ?_, ?_, ?_, ?_, by decide⟩ <;>
    simp [selectedBy, atIndex, sample, initialSession]

theorem witness_StartResetsAndReceives :
    (holding (sample .awaitingStart [])).session = some (sample .awaitingStart []) ∧
    (sample .awaitingStart []).state = .awaitingStart := by decide

theorem witness_IdleOctetsChangeNothing :
    ((holding (sample .awaitingStart [])).session = some (sample .awaitingStart []) ∧ (0x7D : Byte) ≠ 0x7E) ∧
    (holding (sample .receivingData [])).session = some (sample .receivingData []) ∧
    (sample .receivingData []).receiveIndex = 0 := by decide

theorem witness_EscapeArmsLookahead :
    (holding (atIndex .receivingData 256)).session = some (atIndex .receivingData 256) ∧
    (atIndex .receivingData 256).state = .receivingData := by decide

theorem witness_ShortFrameIsDropped :
    (holding (atIndex .receivingData 5)).session = some (atIndex .receivingData 5) ∧
    0 < (atIndex .receivingData 5).receiveIndex ∧ (atIndex .receivingData 5).receiveIndex ≤ 5 ∧
    0 < (atIndex .receivingData 1).receiveIndex := by decide

theorem witness_DataOctetIsStored :
    (holding (atIndex .receivingData 255)).session = some (atIndex .receivingData 255) ∧
    (0x41 : Byte) ≠ 0x7D ∧ (0x41 : Byte) ≠ 0x7E ∧ (atIndex .receivingData 255).receiveIndex < 256 ∧
    (atIndex .receivingData 255).rxb.wf = true ∧ (0 : Nat) ≠ (atIndex .receivingData 255).receiveIndex := by decide

theorem witness_EscapedOctetIsUnmaskedAndStored :
    (holding (atIndex .processingEscape 255)).session = some (atIndex .processingEscape 255) ∧
    (atIndex .processingEscape 255).receiveIndex < 256 ∧ (atIndex .processingEscape 255).rxb.wf = true := by
  decide

theorem witness_OverrunDiscardsFrame :
    (holding (atIndex .receivingData 256)).session = some (atIndex .receivingData 256) ∧
    (0x41 : Byte) ≠ 0x7D ∧ (0x41 : Byte) ≠ 0x7E ∧ (atIndex .receivingData 256).receiveIndex = 256 ∧
    (atIndex .processingEscape 256).state = .processingEscape := by decide

/-- Clause 1 at an ignored frame of 6 octets, clause 2 at an index DISPATCH refuses. -/
theorem witness_ClosingFlagDispatchesThenResets :
    let S := atIndex .receivingData 6
    let S' := atIndex .receivingData 257
    ((holding S).session = some S ∧ S.state = .receivingData ∧ 5 < S.receiveIndex ∧
      exec (.dispatch (S.rxb.read 0) (S.rxb.read 1) (S.rxb.read 2)) (holding S) = .next (holding S)) ∧
    (holding S').session = some S' ∧ S'.state = .receivingData ∧ 5 < S'.receiveIndex ∧
    exec (.dispatch (S'.rxb.read 0) (S'.rxb.read 1) (S'.rxb.read 2)) (holding S') =
      .refused (.dispatchLength 257) :=
  ⟨⟨rfl, rfl, by decide, rfl⟩, rfl, rfl, by decide, rfl⟩

/-- At both ends of the range of the index. -/
theorem witness_ClosingFlagCompletes :
    let S := sample .receivingData frameS7
    let S' := atIndex .receivingData 256
    ((scripted S ⟨[], 1⟩).session = some S ∧ S.state = .receivingData ∧ S.receiveIndex = 6 ∧
      nextTurn (scripted S ⟨[], 1⟩) = .returns ⟨[], 1⟩) ∧
    (scripted S' ⟨[], 1⟩).session = some S' ∧ S'.state = .receivingData ∧ S'.receiveIndex = 256 ∧
    nextTurn (scripted S' ⟨[], 1⟩) = .returns ⟨[], 1⟩ := by decide

theorem witness_RxbyteCompletes :
    let S := atIndex .receivingData 256
    (scripted S ⟨[], 0⟩).session = some S ∧ S.receiveIndex ≤ 256 ∧
    nextTurn (scripted S ⟨[], 0⟩) = .returns ⟨[], 0⟩ := by decide

/-- One of each kind: a store at the last index, nothing stored, a reset. -/
theorem witness_AssemblingIsSilent :
    let S := atIndex .receivingData 255
    let S' := atIndex .receivingData 5
    ((holding S).session = some S ∧ S.rxb.wf = true ∧ selectedBy S 0x41 (.rxData 0x41) ∧
      Instr.rxData 0x41 ≠ .rxFlagDispatch ∧
      exec (.rxData 0x41) (holding S) = .next (holding (S.storeReceived 0x41))) ∧
    (selectedBy S 0x7D .rxEsc ∧
      exec .rxEsc (holding S) = .next (holding { S with state := .processingEscape })) ∧
    selectedBy S' 0x7E .rxFlagShort ∧
    exec .rxFlagShort (holding S') = .next (holding (restartReceiving S')) :=
  ⟨⟨rfl, rfl, ⟨rfl, rfl, by decide, by decide, by decide⟩, by decide, rfl⟩, ⟨⟨rfl, rfl⟩, rfl⟩,
    ⟨rfl, rfl, by decide, by decide⟩, rfl⟩

/-! ## Witnesses: Frame Dispatcher -/

/-- A body of 5 octets for node 0x03, and one of 256 octets with another control octet. -/
theorem witness_FilteredFrameIsIgnored :
    let S := sample .receivingData [0x02, 0x03, 0x13, 0x39, 0x47]
    let S' := { atIndex .receivingData 256 with rxb := [(0, 0x02), (1, 0x01), (2, 0x03)] }
    ((holding S).session = some S ∧ S.receiveIndex = 5 ∧ S.rxb.read 1 ≠ S.ownAddress) ∧
    (holding S').session = some S' ∧ S'.receiveIndex = 256 ∧ S'.rxb.read 1 = S'.ownAddress ∧
    S'.rxb.read 2 ≠ 0x13 := by decide

theorem witness_BadChecksumRaisesCrcError :
    let S := sample .receivingData frameS8
    (holding S).session = some S ∧ 5 ≤ S.receiveIndex ∧ S.receiveIndex ≤ 256 ∧ S.rxb.read 1 = S.ownAddress ∧
    S.rxb.read 2 = 0x13 ∧ S.crcCheckEnable = true ∧ S.plb.wf = true ∧
    crc16 (S.rxb.slice 0 (S.receiveIndex - 2)) ≠
      S.rxb.read (S.receiveIndex - 2) ++ S.rxb.read (S.receiveIndex - 1) ∧ 0 < S.receiveIndex - 5 := by
  decide +kernel

/-- A correct checksum, and one not verified; the replies at the edges of the three clauses. -/
theorem witness_AcceptedFrameIsProcessedAndAnswered :
    let S := sample .receivingData frameS7
    (holding S).session = some S ∧ 5 ≤ S.receiveIndex ∧ S.receiveIndex ≤ 256 ∧ S.rxb.read 1 = S.ownAddress ∧
    S.rxb.read 2 = 0x13 ∧ S.plb.wf = true ∧
    crc16 (S.rxb.slice 0 (S.receiveIndex - 2)) =
      S.rxb.read (S.receiveIndex - 2) ++ S.rxb.read (S.receiveIndex - 1) ∧
    { S with crcCheckEnable := false }.crcCheckEnable = false ∧
    nextTurn (scripted S ⟨[], 0⟩) = .returns ⟨[], 0⟩ ∧ nextTurn (scripted S ⟨[], 252⟩) = .returns ⟨[], 252⟩ ∧
    nextTurn (scripted S ⟨[], 1⟩) = .returns ⟨[], 1⟩ ∧ nextTurn (scripted S ⟨[], 251⟩) = .returns ⟨[], 251⟩ := by
  decide +kernel

theorem witness_DispatchOutsideContractIsRefused :
    ((holding (atIndex .receivingData 4)).session = some (atIndex .receivingData 4) ∧
      (atIndex .receivingData 4).receiveIndex < 5) ∧ 256 < (atIndex .receivingData 257).receiveIndex ∧
    let S := sample .receivingData frameS7
    let S' := { S with crcCheckEnable := false }
    let s := { holding S with procScript := [.breaks .didNotReturn] }
    s.session = some S ∧ 5 ≤ S.receiveIndex ∧ S.receiveIndex ≤ 256 ∧ S.rxb.read 1 = S.ownAddress ∧
    S.rxb.read 2 = 0x13 ∧ S.crcCheckEnable = true ∧
    crc16 (S.rxb.slice 0 (S.receiveIndex - 2)) =
      S.rxb.read (S.receiveIndex - 2) ++ S.rxb.read (S.receiveIndex - 1) ∧
    nextTurn s = .breaks .didNotReturn ∧ S'.crcCheckEnable = false := by decide +kernel

theorem witness_DispatchChangesOnlyItsOwn :
    let S := { sample .receivingData frameS7 with crcCheckEnable := false }
    (∃ t T, exec (.dispatch 0x02 0x01 0x13) (scripted S ⟨[], 0⟩) = .next t ∧ t.session = some T ∧
      t.sink = (scripted S ⟨[], 0⟩).sink) ∧
    (scripted S ⟨[], 0⟩).session = some S ∧ S.plb.wf = true ∧ S.txb.wf = true ∧
    nextTurn (scripted S ⟨[], 0⟩) = .returns ⟨[], 0⟩ ∧
    exec (.dispatch 0x00 0x00 0x00) (holding (atIndex .receivingData 5)) =
      .next (holding (atIndex .receivingData 5)) :=
  ⟨⟨_, _, rfl, rfl, rfl⟩, rfl, rfl, rfl, rfl, rfl⟩

/-! ## Witnesses: Transmit Framer -/

theorem witness_OverlongFrameRaisesLenError :
    (holding (withPeer 0x01 0x02)).session = some (withPeer 0x01 0x02) ∧
    251 < (List.replicate 252 (0x00 : Byte)).length := ⟨rfl, by rw [List.length_replicate]; decide⟩

theorem witness_FrameWithoutPeerIsRefused :
    (holding (sample .awaitingStart [])).session = some (sample .awaitingStart []) ∧
    (List.replicate 251 (0x00 : Byte)).length ≤ 251 ∧ (sample .awaitingStart []).peerSourceAddress = none :=
  ⟨rfl, List.length_replicate.le, rfl⟩

theorem witness_FrameIsBuiltAndEmitted :
    (holding (withPeer 0x01 0x02)).session = some (withPeer 0x01 0x02) ∧
    (withPeer 0x01 0x02).peerSourceAddress = some 0x02 ∧ (List.replicate 251 (0x00 : Byte)).length ≤ 251 ∧
    (withPeer 0x01 0x02).txb.wf = true := ⟨rfl, rfl, List.length_replicate.le, rfl⟩

theorem witness_FrameSizeOnTheWire :
    (∃ t, exec (.txframe [0x20]) (holding (withPeer 0x7E 0x7D)) = .next t) ∧ [(0x20 : Byte)].length ≤ 251 :=
  ⟨⟨_, rfl⟩, by decide⟩

theorem witness_RawFrameIsEmitted :
    State.reset.session.isSome = true ∧ 254 < (List.replicate 255 (0x00 : Byte)).length ∧
    (List.replicate 254 (0x00 : Byte)).length ≤ 254 :=
  ⟨rfl, by rw [List.length_replicate]; decide, List.length_replicate.le⟩

/-! ## Witnesses: reset and the rules of the whole machine -/

theorem witness_NothingRunsBeforeInit : State.powerOn.session = none := rfl

theorem reset_inv : State.reset.Inv := by
  intro S h
  cases h
  constructor <;> simp [Memory.read, Memory.wf, Memory.blank]

theorem witness_EveryStepKeepsInvariant : State.reset.Inv ∧ step State.reset = .next State.reset :=
  ⟨reset_inv, rfl⟩

theorem witness_OnlyInitWritesConfiguration :
    (∀ own en, Instr.rxEsc ≠ .init own en) ∧
    (∃ t T, exec .rxEsc (holding (sample .receivingData [])) = .next t ∧ t.session = some T) ∧
    (holding (sample .receivingData [])).session = some (sample .receivingData []) :=
  ⟨fun _ _ => by simp, ⟨_, _, rfl, rfl⟩, rfl⟩

/-- A step of each kind: unchanged, and the three edges. -/
theorem witness_StateGraphHasNoOtherEdge :
    ((∀ own en, Instr.txraw [] ≠ .init own en) ∧
      ∃ t, exec (.txraw []) (holding (sample .receivingData [])) = .next t ∧
        t.session = some (sample .receivingData [])) ∧
    (∃ t T, exec (.rxbyte 0x7E) (holding (sample .awaitingStart [])) = .next t ∧ t.session = some T ∧
      T.state = .receivingData) ∧
    (∃ t T, exec .rxEsc (holding (sample .receivingData [])) = .next t ∧ t.session = some T ∧
      T.state = .processingEscape) ∧
    (∃ t T, exec (.rxbyte 0x7D) (holding (sample .processingEscape [])) = .next t ∧ t.session = some T ∧
      T.state = .receivingData) ∧
    isReceive (.rxUnesc 0x7D) = true :=
  ⟨⟨fun _ _ => by simp, _, rfl, rfl⟩, ⟨_, _, rfl, rfl, rfl⟩, ⟨_, _, rfl, rfl, rfl⟩, ⟨_, _, rfl, rfl, rfl⟩, rfl⟩

/-- The last clause at a frame whose checksum does not match. -/
theorem witness_OutputsOnlyGrow :
    (nextState (exec (.dispatch 0x02 0x01 0x13) (holding (sample .receivingData frameS8)))).map State.events =
      some [.crcError] := by decide +kernel

theorem witness_NoCrcErrorWhenDisabled :
    (nextState (exec (.dispatch 0x02 0x01 0x13)
      (scripted { sample .receivingData frameS8 with crcCheckEnable := false } ⟨[], 0⟩))).isSome = true ∧
    { sample .receivingData frameS8 with crcCheckEnable := false }.crcCheckEnable = false := by decide

/-- Both alternatives: an octet stored, and a frame accepted. -/
theorem witness_PeerChangesOnlyAtAcceptance :
    (∀ own en, Instr.rxFlagDispatch ≠ .init own en) ∧
    (sessionField Session.peerSourceAddress (exec (.rxData 0x41) (holding (sample .receivingData [])))) =
      some none ∧
    (sessionField Session.peerSourceAddress
      (exec .rxFlagDispatch (scripted (sample .receivingData frameS7) ⟨[], 0⟩))) = some (some 0x02) :=
  ⟨fun _ _ => by simp, by decide, by decide +kernel⟩

theorem witness_UnreadFieldsDoNotInfluence :
    (holding (sample .receivingData [])).session = some (sample .receivingData []) ∧
    ∃ t, exec (.rxData 0x41) (holding (sample .receivingData [])) = .next t :=
  ⟨rfl, _, rfl⟩

/-! ## Witnesses: runs -/

theorem witness_EscapedBodyIsAssembled :
    (holding (sample .awaitingStart [])).session = some (sample .awaitingStart []) ∧
    (sample .awaitingStart []).state = .awaitingStart ∧ (List.replicate 256 (0x7E : Byte)).length ≤ 256 :=
  ⟨rfl, rfl, List.length_replicate.le⟩

/-- A sender with a peer, and receivers at both kinds of frame boundary. -/
theorem witness_TransmittedFrameIsReceived :
    (holding (withPeer 0x01 0x02)).session = some (withPeer 0x01 0x02) ∧
    (holding (sample .receivingData [])).session = some (sample .receivingData []) ∧
    (withPeer 0x01 0x02).peerSourceAddress = some 0x02 ∧ (withPeer 0x01 0x02).txb.wf = true ∧
    (List.replicate 251 (0x00 : Byte)).length ≤ 251 ∧ (sample .receivingData []).atBoundary ∧
    (sample .awaitingStart []).atBoundary ∧ (sample .receivingData []).rxb.wf = true :=
  ⟨rfl, rfl, rfl, rfl, List.length_replicate.le, .inr ⟨rfl, rfl⟩, .inl rfl, rfl⟩

theorem sample_inv (st : RxState) : (sample st []).Inv := by
  constructor <;> simp [sample, initialSession, Memory.fill, Memory.cleared, Memory.read, Memory.wf, Memory.blank]

theorem witness_PolledFrameIsAnswered :
    (scripted (sample .receivingData []) ⟨[], 251⟩).session = some (sample .receivingData []) ∧
    (sample .receivingData []).atBoundary ∧ (sample .receivingData []).Inv ∧
    nextTurn (scripted (sample .receivingData []) ⟨[], 0⟩) = .returns ⟨[], 0⟩ ∧
    nextTurn (scripted (sample .receivingData []) ⟨[], 251⟩) = .returns ⟨[], 251⟩ ∧
    nextTurn (scripted (sample .receivingData []) ⟨[], 252⟩) = .returns ⟨[], 252⟩ ∧
    1 ≤ [(0x41 : Byte)].length ∧ (List.replicate 251 (0x41 : Byte)).length ≤ 251 :=
  ⟨rfl, .inr ⟨rfl, rfl⟩, sample_inv _, rfl, rfl, rfl, by decide, List.length_replicate.le⟩

theorem witness_CorruptFrameIsDropped :
    (holding (sample .receivingData [])).session = some (sample .receivingData []) ∧
    (sample .receivingData []).atBoundary ∧ (sample .receivingData []).Inv ∧
    (sample .receivingData []).crcCheckEnable = true ∧ 1 ≤ [(0x41 : Byte)].length ∧
    [(0x41 : Byte)].length ≤ 251 ∧ (0x8CFE : Half) ≠ crc16 ([0x02, 0x01, 0x13] ++ [0x41]) :=
  ⟨rfl, .inr ⟨rfl, rfl⟩, sample_inv _, rfl, by decide, by decide, by decide +kernel⟩

end Sys2Proof.Tests
end

section
/-! The codec's statements (41_codec.md). -/

namespace Sys2Proof.Machine

/-- The table's input column says "any": no octet is excepted (41_codec.md R132). -/
theorem unescape_eq_xor (x : Byte) : unescape x = x ^^^ 0x20 := by
  rw [unescape, cfg_escMask]

/-- Settles O11: `unescape` is xor with the mask 0x20, and xor with one mask undoes itself. -/
theorem unescapeUndoesItself : Obligations.UnescapeUndoesItself :=
  fun x => ⟨unescape_eq_xor x, unescape_unescape x⟩

end Sys2Proof.Machine
end

section
/-! The Receive Assembler's statements: the micro-operations that leave the buffers alone, and those that store
(42_rx_assembler.md). -/

namespace Sys2Proof.Machine

/-! ## The session after a store at the receive index -/

section
variable {S : Session} (hwf : S.rxb.wf = true) (v : Byte)
include hwf

theorem storeReceived_read_same : (S.storeReceived v).rxb.read S.receiveIndex = v := by
  simp [Session.storeReceived, Memory.read_write hwf]

theorem storeReceived_read_other (a : Nat) (ha : a ≠ S.receiveIndex) :
    (S.storeReceived v).rxb.read a = S.rxb.read a := by
  simp [Session.storeReceived, Memory.read_write hwf, ha]

end

/-! ## Each micro-operation where it is selected -/

section
variable {s : State} {S : Session} {b : Byte} (hS : s.session = some S)
include hS

theorem exec_rxIdle_selected (hst : S.state = .awaitingStart) (hflag : b ≠ 0x7E) :
    exec (.rxIdle b) s = .next s :=
  whenSelected_some hS (decide_eq_true ⟨hst, hflag⟩)

theorem exec_rxFlagIdle_selected (hst : S.state = .receivingData) (hi : S.receiveIndex = 0) :
    exec .rxFlagIdle s = .next s :=
  whenSelected_some hS (decide_eq_true ⟨hst, hi⟩)

theorem exec_rxEsc_selected (hst : S.state = .receivingData) :
    exec .rxEsc s = .next (s.putSession { S with state := .processingEscape }) :=
  whenSelected_some hS (decide_eq_true hst)

theorem exec_rxData_selected (hst : S.state = .receivingData) (hesc : b ≠ 0x7D) (hflag : b ≠ 0x7E)
    (hi : S.receiveIndex < 256) : exec (.rxData b) s = .next (s.putSession (S.storeReceived b)) :=
  whenSelected_some hS (decide_eq_true ⟨hst, hflag, hesc, hi⟩)

theorem exec_rxUnesc_selected (hst : S.state = .processingEscape) (hi : S.receiveIndex < 256) :
    exec (.rxUnesc b) s =
      .next (s.putSession { S.storeReceived (b ^^^ 0x20) with state := .receivingData }) := by
  rw [← unescape_eq_xor]
  exact whenSelected_some hS (decide_eq_true ⟨hst, hi⟩)

end

/-! ## The statements -/

/-- Settles O17: both idle rows are selected here, and neither has an effect. -/
theorem idleOctetsChangeNothing : Obligations.IdleOctetsChangeNothing :=
  ⟨fun _ _ _ hS hst hflag => exec_rxIdle_selected hS hst hflag,
    fun _ _ hS hst hi => exec_rxFlagIdle_selected hS hst hi⟩

/-- Settles O18: the selection of RX.ESC does not ask for the index. -/
theorem escapeArmsLookahead : Obligations.EscapeArmsLookahead :=
  fun _ _ hS hst => exec_rxEsc_selected hS hst

/-- Settles O20: the buffer is the one `Session.storeReceived` leaves. -/
theorem dataOctetIsStored : Obligations.DataOctetIsStored := by
  intro s S b hS hst hesc hflag hi hwf
  exact ⟨(S.storeReceived b).rxb, exec_rxData_selected hS hst hesc hflag hi,
    storeReceived_read_same hwf b, storeReceived_read_other hwf b⟩

/-- Settles O21: the buffer is the one `Session.storeReceived` leaves with the octet unmasked first. -/
theorem escapedOctetIsUnmaskedAndStored : Obligations.EscapedOctetIsUnmaskedAndStored := by
  intro s S b hS hst hi hwf
  exact ⟨(S.storeReceived (b ^^^ 0x20)).rxb, exec_rxUnesc_selected hS hst hi,
    storeReceived_read_same hwf _, storeReceived_read_other hwf _⟩

end Sys2Proof.Machine
end

section
/-! The Frame Dispatcher's statements: the header word of the frame in RXB, and the filter (43_dispatcher.md). -/

namespace Sys2Proof.Machine

/-- The header word formed from `RXB[0..3)` is always selected (30_encoding.md R89). -/
theorem exec_dispatch_selected {s : State} {S : Session} (hS : s.session = some S) :
    exec (.dispatch (S.rxb.read 0) (S.rxb.read 1) (S.rxb.read 2)) s = dispatchFrame S s :=
  (withSession_some hS).trans (if_pos ⟨rfl, rfl, rfl⟩)

theorem passesFilter_eq_false_iff (S : Session) :
    S.passesFilter = false ↔ S.rxb.read 1 ≠ S.ownAddress ∨ S.rxb.read 2 ≠ 0x13 := by
  rw [← Bool.not_eq_true, passesFilter_iff, not_and_or]

/-- The filter comes before the checksum and the call: neither is a hypothesis (43_dispatcher.md R162). -/
theorem dispatchFrame_filtered {S : Session} (s : State) (h5 : 5 ≤ S.receiveIndex)
    (h256 : S.receiveIndex ≤ 256) (hp : S.passesFilter = false) : dispatchFrame S s = .next s := by
  have hlen : ¬ (S.receiveIndex < cfg.minFrame ∨ cfg.capacity < S.receiveIndex) := by
    rw [cfg_minFrame, cfg_capacity]
    omega
  simp [dispatchFrame, hlen, hp]

/-- Settles O27: the header is selected, its length is in range, and the filter turns it away. -/
theorem filteredFrameIsIgnored : Obligations.FilteredFrameIsIgnored := by
  intro s S hS h5 h256 hfilter
  rw [exec_dispatch_selected hS]
  exact dispatchFrame_filtered s h5 h256 ((passesFilter_eq_false_iff S).mpr hfilter)

end Sys2Proof.Machine
end

section
/-! The Transmit Framer's statement: the body in TXB and the octets on the wire (44_tx_framer.md). -/

namespace Sys2Proof.Machine

/-! ## The body in TXB -/

section
variable {txb : Memory} (hwf : txb.wf = true) (own peer : Byte) (payload : List Byte)
include hwf

theorem read_buildBody_header (k : Nat) (hk : k < 3) :
    (buildBody txb own peer payload).read k = [own, peer, 0x13][k] := by
  rw [read_buildBody hwf, if_neg (by omega), if_neg (by omega), read_buildHeader hwf, dif_neg (by omega)]
  match k with
  | 0 => rfl
  | 1 => rfl
  | 2 => rfl

theorem read_buildBody_payload (k : Nat) (hk : k < payload.length) :
    (buildBody txb own peer payload).read (3 + k) = payload[k] := by
  rw [read_buildBody hwf, if_neg (by omega), if_neg (by omega), read_buildHeader hwf, dif_pos (by omega)]
  simp

theorem read_buildBody_crcHi :
    (buildBody txb own peer payload).read (3 + payload.length) =
      crcHi (crc16 ([own, peer, 0x13] ++ payload)) := by
  rw [read_buildBody hwf, if_neg (by omega), if_pos rfl]

theorem read_buildBody_crcLo :
    (buildBody txb own peer payload).read (4 + payload.length) =
      crcLo (crc16 ([own, peer, 0x13] ++ payload)) := by
  rw [read_buildBody hwf, if_pos rfl]

/-- The octets of an earlier, longer frame stay behind the body. -/
theorem read_buildBody_beyond (a : Nat) (ha : 5 + payload.length ≤ a) :
    (buildBody txb own peer payload).read a = txb.read a := by
  rw [read_buildBody hwf, if_neg (by omega), if_neg (by omega), read_buildHeader hwf,
    dif_neg (by omega), if_neg (by omega), if_neg (by omega), if_neg (by omega)]

/-- What is emitted is the body of 30_encoding.md R81, for it is read back from TXB. -/
theorem slice_buildBody_eq_addressedBody :
    (buildBody txb own peer payload).slice 0 (5 + payload.length) =
      addressedBody own peer payload (crc16 ([own, peer, 0x13] ++ payload)) :=
  slice_buildBody hwf own peer payload

end

/-! ## The emission -/

theorem wireFrame_eq (body : List Byte) : wireFrame body = [0x7E] ++ encodeBytes body ++ [0x7E] := rfl

/-- `TXFRAME` runs to its end with a peer and a legal length, whatever else the session holds. -/
theorem exec_txframe_of_peer {s : State} {S : Session} {peer : Byte} {payload : List Byte}
    (hS : s.session = some S) (hpeer : S.peerSourceAddress = some peer) (hlen : payload.length ≤ 251)
    (hwf : S.txb.wf = true) :
    exec (.txframe payload) s =
      .next ((s.putSession { S with txb := buildBody S.txb S.ownAddress peer payload }).emitAll
        (wireFrame (addressedBody S.ownAddress peer payload
          (crc16 ([S.ownAddress, peer, 0x13] ++ payload))))) := by
  rw [← slice_buildBody_eq_addressedBody hwf]
  exact (withSession_some hS).trans (transmitFrame_of_peer hpeer hlen)

/-- Settles O34: the buffer is the one `buildBody` leaves, and the octets emitted are read back from it. -/
theorem frameIsBuiltAndEmitted : Obligations.FrameIsBuiltAndEmitted := by
  intro s S peer payload hS hpeer hlen hwf
  have header := read_buildBody_header hwf S.ownAddress peer payload
  refine ⟨buildBody S.txb S.ownAddress peer payload, _, rfl, ?_,
    header 0 (by decide), header 1 (by decide), header 2 (by decide),
    read_buildBody_payload hwf _ _ _, read_buildBody_crcHi hwf _ _ _, read_buildBody_crcLo hwf _ _ _,
    read_buildBody_beyond hwf _ _ _⟩
  rw [exec_txframe_of_peer hS hpeer hlen hwf, State.emitAll_eq, wireFrame_eq]
  rfl

end Sys2Proof.Machine
end

section
/-! The encodings' statements: the three formats, decoded and encoded (30_encoding.md R88 to R91). -/

namespace Sys2Proof

/-! ## Words as a state code and an octet -/

theorem append_octet_inj {c c' : BitVec 2} {b b' : Byte} : c ++ b = c' ++ b' ↔ c = c' ∧ b = b' := by
  refine ⟨fun h => ⟨?_, ?_⟩, fun ⟨hc, hb⟩ => hc ▸ hb ▸ rfl⟩
  · rw [← BitVec.extractLsb'_append_eq_left (a := c) (b := b), h, BitVec.extractLsb'_append_eq_left]
  · rw [← BitVec.extractLsb'_append_eq_right (a := c) (b := b), h, BitVec.extractLsb'_append_eq_right]

theorem exists_append_octet (w : BitVec 10) : ∃ (c : BitVec 2) (b : Byte), w = c ++ b :=
  ⟨w.extractLsb' 8 2, w.extractLsb' 0 8,
    (BitVec.extractLsb'_append_extractLsb' (w := 2) (len := 8) (x := w)).symm⟩

/-- A row that fixes all ten bits is matched by its own word only. -/
theorem matchesRow_word (c c' : BitVec 2) (b b' : Byte) :
    matchesRow (c ++ b) 0x3FF (c' ++ b') = true ↔ c = c' ∧ b = b' := by
  rw [matchesRow, beq_iff_eq, ← append_octet_inj]
  exact iff_of_eq (congrArg (· = c' ++ b') (BitVec.and_allOnes (x := c ++ b)))

/-- A row that fixes the state code is matched by every octet. -/
theorem matchesRow_code (c c' : BitVec 2) (b : Byte) :
    matchesRow (c ++ b) 0x300 (c' ++ 0#8) = true ↔ c = c' := by
  have mask : (c ++ b) &&& (0b11#2 ++ 0#8) = c ++ 0#8 := by
    rw [BitVec.and_append, BitVec.and_zero, show 0b11#2 = BitVec.allOnes 2 from rfl, BitVec.and_allOnes]
  rw [matchesRow, beq_iff_eq, show (0x300 : BitVec 10) = 0b11#2 ++ 0#8 from rfl, mask,
    BitVec.append_left_inj]

/-! ## The rows of each state (30_encoding.md R88) -/

section
variable (c : BitVec 2) (b : Byte)

theorem matchesRow_start : matchesRow (c ++ b) 0x3FF 0x07E = true ↔ c = 0 ∧ b = 0x7E :=
  matchesRow_word c 0 b 0x7E
theorem matchesRow_esc : matchesRow (c ++ b) 0x3FF 0x17D = true ↔ c = 1 ∧ b = 0x7D :=
  matchesRow_word c 1 b 0x7D
theorem matchesRow_flag : matchesRow (c ++ b) 0x3FF 0x17E = true ↔ c = 1 ∧ b = 0x7E :=
  matchesRow_word c 1 b 0x7E
theorem matchesRow_awaiting : matchesRow (c ++ b) 0x300 0x000 = true ↔ c = 0 :=
  matchesRow_code c 0 b
theorem matchesRow_receiving : matchesRow (c ++ b) 0x300 0x100 = true ↔ c = 1 :=
  matchesRow_code c 1 b
theorem matchesRow_escape : matchesRow (c ++ b) 0x300 0x200 = true ↔ c = 2 :=
  matchesRow_code c 2 b
theorem matchesRow_noState : matchesRow (c ++ b) 0x300 0x300 = true ↔ c = 3 :=
  matchesRow_code c 3 b

end

/-- The decoder on a state code and an octet, its rows in the order of R88. -/
theorem decodeRx_append (c : BitVec 2) (b : Byte) (index : Nat) :
    decodeRx (c ++ b) index =
      if c = 0 ∧ b = 0x7E then .ok .rxStart
      else if c = 0 then .ok (.rxIdle b)
      else if c = 1 ∧ b = 0x7D then .ok .rxEsc
      else if (c = 1 ∧ b = 0x7E) ∧ index = 0 then .ok .rxFlagIdle
      else if (c = 1 ∧ b = 0x7E) ∧ 5 < index then .ok .rxFlagDispatch
      else if (c = 1 ∧ b = 0x7E) ∧ 0 < index ∧ index ≤ 5 then .ok .rxFlagShort
      else if c = 1 ∧ index < 256 then .ok (.rxData b)
      else if c = 1 ∧ index = 256 then .ok (.rxOverrun b)
      else if c = 2 ∧ index < 256 then .ok (.rxUnesc b)
      else if c = 2 ∧ index = 256 then .ok (.rxUnescOverrun b)
      else if c = 3 then .error .stateCode
      else .error .indexRange := by
  simp only [decodeRx, BitVec.extractLsb'_append_eq_right, matchesRow_start, matchesRow_esc,
    matchesRow_flag, matchesRow_awaiting, matchesRow_receiving, matchesRow_escape, matchesRow_noState]

section
variable (b : Byte) (index : Nat)

theorem decodeRx_awaiting : decodeRx (0#2 ++ b) index =
    if b = 0x7E then .ok .rxStart else .ok (.rxIdle b) := by
  simp [decodeRx_append]

theorem decodeRx_receiving : decodeRx (1#2 ++ b) index =
    if b = 0x7D then .ok .rxEsc
    else if b = 0x7E ∧ index = 0 then .ok .rxFlagIdle
    else if b = 0x7E ∧ 5 < index then .ok .rxFlagDispatch
    else if b = 0x7E ∧ 0 < index ∧ index ≤ 5 then .ok .rxFlagShort
    else if index < 256 then .ok (.rxData b)
    else if index = 256 then .ok (.rxOverrun b)
    else .error .indexRange := by
  simp [decodeRx_append]

theorem decodeRx_escape : decodeRx (2#2 ++ b) index =
    if index < 256 then .ok (.rxUnesc b)
    else if index = 256 then .ok (.rxUnescOverrun b)
    else .error .indexRange := by
  simp [decodeRx_append]

theorem decodeRx_noState : decodeRx (3#2 ++ b) index = .error .stateCode := by
  simp [decodeRx_append]

end

/-! ## Decoding what the encoder writes -/

theorem encode_rxStart : encode .rxStart = .rxw (0#2 ++ 0x7E#8) := rfl
theorem encode_rxEsc : encode .rxEsc = .rxw (1#2 ++ 0x7D#8) := rfl
theorem encode_flag {i : Instr} (h : i = .rxFlagIdle ∨ i = .rxFlagDispatch ∨ i = .rxFlagShort) :
    encode i = .rxw (1#2 ++ 0x7E#8) := by
  rcases h with rfl | rfl | rfl <;> rfl

/-- A header ends in its control octet, and the filter's row reads no other bits (30_encoding.md R89). -/
theorem decodeHeader_append (source dest control : Byte) :
    decodeHeader (source ++ dest ++ control) =
      if control = 0x13 then .ok (.dispatch source dest control) else .error .headerIgnored := by
  have mask : (source ++ dest ++ control) &&& (0#8 ++ 0#8 ++ 0xFF#8) = 0#8 ++ 0#8 ++ control := by
    rw [BitVec.and_append, BitVec.and_append, BitVec.and_zero, BitVec.and_zero,
      show 0xFF#8 = BitVec.allOnes 8 from rfl, BitVec.and_allOnes]
  have row : (source ++ dest ++ control : BitVec 24) &&& 0x0000FF = 0x000013 ↔ control = 0x13 := by
    rw [show (0x0000FF : BitVec 24) = 0#8 ++ 0#8 ++ 0xFF#8 from rfl, mask,
      show (0x000013 : BitVec 24) = 0#8 ++ 0#8 ++ 0x13#8 from rfl, BitVec.append_right_inj]
    rfl
  have high : (source ++ dest ++ control).extractLsb' 16 8 = source := by
    rw [BitVec.extractLsb'_append_eq_of_le (by decide)]
    exact BitVec.extractLsb'_append_eq_left
  have middle : (source ++ dest ++ control).extractLsb' 8 8 = dest := by
    rw [BitVec.extractLsb'_append_eq_of_le (by decide)]
    exact BitVec.extractLsb'_append_eq_right
  rw [decodeHeader]
  simp only [row, high, middle, BitVec.extractLsb'_append_eq_right]

theorem decodeBit_encodeBit (crcEn : Bool) : decodeBit (encodeBit crcEn) = some crcEn := by
  cases crcEn <;> rfl

/-- Settles O2, by cases on the operation: a receive word through the rows of its state code, a header through
the filter's row, a command through its op code. -/
theorem decodeOfEncodeIsIdentity : Obligations.DecodeOfEncodeIsIdentity := by
  intro i index hwf hidx
  cases i with
  | rxStart => rfl
  | rxIdle b => simpa [encode, decode, decodeRx_append, Instr.wf] using hwf
  | rxEsc => rfl
  | rxFlagIdle =>
    have hi : index = 0 := by simpa [Instr.indexCondition] using hidx
    subst hi
    rfl
  | rxFlagDispatch =>
    have hi : 5 < index := by simpa [Instr.indexCondition] using hidx
    rw [encode_flag (by simp), decode, decodeRx_append]
    simp [hi, show index ≠ 0 by omega]
  | rxFlagShort =>
    have hi : 0 < index ∧ index ≤ 5 := by simpa [Instr.indexCondition] using hidx
    rw [encode_flag (by simp), decode, decodeRx_append]
    simp [hi, show index ≠ 0 by omega]
  | rxData b =>
    have hb : b ≠ 0x7E#8 ∧ b ≠ 0x7D#8 := by simpa [Instr.wf] using hwf
    have hi : index < 256 := by simpa [Instr.indexCondition] using hidx
    simp [encode, decode, decodeRx_append, hb, hi]
  | rxOverrun b =>
    have hb : b ≠ 0x7E#8 ∧ b ≠ 0x7D#8 := by simpa [Instr.wf] using hwf
    have hi : index = 256 := by simpa [Instr.indexCondition] using hidx
    simp [encode, decode, decodeRx_append, hb, hi]
  | rxUnesc b =>
    have hi : index < 256 := by simpa [Instr.indexCondition] using hidx
    simp [encode, decode, decodeRx_append, hi]
  | rxUnescOverrun b =>
    have hi : index = 256 := by simpa [Instr.indexCondition] using hidx
    simp [encode, decode, decodeRx_append, hi]
  | dispatch source dest control =>
    have hc : control = 0x13 := by simpa [Instr.wf] using hwf
    rw [encode, decode, decodeHeader_append, if_pos hc]
  | init own crcEn => simp [encode, decode, decodeCommand, decodeBit_encodeBit]
  | rxbyte b => rfl
  | txframe payload => rfl
  | txraw payload => rfl
  | crc16 bytes => rfl
  | encbyte b => rfl

theorem code_cases (c : BitVec 2) : c = 0#2 ∨ c = 1#2 ∨ c = 2#2 ∨ c = 3#2 := by
  revert c
  decide

/-- An operation read from a receive word is the one that word encodes, and its row admits it there. -/
theorem encode_of_decodeRx {w : BitVec 10} {index : Nat} {i : Instr} (h : decodeRx w index = .ok i) :
    encode i = .rxw w ∧ i.wf = true ∧ i.indexCondition index = true := by
  obtain ⟨c, b, rfl⟩ := exists_append_octet w
  rcases code_cases c with rfl | rfl | rfl | rfl
  · rw [decodeRx_awaiting] at h
    split_ifs at h with hflag <;> cases h
    · exact ⟨hflag ▸ rfl, rfl, rfl⟩
    · exact ⟨rfl, bne_iff_ne.mpr hflag, rfl⟩
  · rw [decodeRx_receiving] at h
    split_ifs at h with hesc h0 h5 hshort hlt heq <;> cases h
    · exact ⟨hesc ▸ rfl, rfl, rfl⟩
    · exact ⟨h0.1 ▸ rfl, rfl, beq_iff_eq.mpr h0.2⟩
    · exact ⟨h5.1 ▸ rfl, rfl, decide_eq_true h5.2⟩
    · exact ⟨hshort.1 ▸ rfl, rfl, by simpa [Instr.indexCondition] using hshort.2⟩
    · have hflag : b ≠ 0x7E := fun hb => by simp only [hb, true_and] at h0 h5 hshort; omega
      exact ⟨rfl, by simpa [Instr.wf] using ⟨hflag, hesc⟩, decide_eq_true hlt⟩
    · have hflag : b ≠ 0x7E := fun hb => by simp only [hb, true_and] at h0 h5 hshort; omega
      exact ⟨rfl, by simpa [Instr.wf] using ⟨hflag, hesc⟩, beq_iff_eq.mpr heq⟩
  · rw [decodeRx_escape] at h
    split_ifs at h with hlt heq <;> cases h
    · exact ⟨rfl, rfl, decide_eq_true hlt⟩
    · exact ⟨rfl, rfl, beq_iff_eq.mpr heq⟩
  · rw [decodeRx_noState] at h
    cases h

/-- Settles O3: from left to right each row answers its own operation, from right to left decode is the inverse
of encode. -/
theorem receiveWordDecodesExactly : Obligations.ReceiveWordDecodesExactly := by
  intro w index i
  refine ⟨encode_of_decodeRx, fun ⟨hw, hwf, hidx⟩ => ?_⟩
  have h := decodeOfEncodeIsIdentity i index hwf hidx
  rwa [hw] at h

/-- Settles O1: each word is evaluated. -/
theorem specWordsDecode : Obligations.SpecWordsDecode := by
  unfold Obligations.SpecWordsDecode
  decide

end Sys2Proof

namespace Sys2Proof.Machine

/-! ## A step and its command -/

theorem step_of_decoded {s : State} {c : Command} {rest : List Command} {i : Instr}
    (hc : s.hostCommands = c :: rest) (hi : decodeCommand c = .ok i) :
    step s = exec i { s with hostCommands := rest } := by
  simp [step, hc, hi]

theorem step_of_undecodable {s : State} {c : Command} {rest : List Command} {why : Reject}
    (hc : s.hostCommands = c :: rest) (hw : decodeCommand c = .error why) :
    step s = .refused (.undecodable why) := by
  simp [step, hc, hw]

theorem step_idle {s : State} (h : s.hostCommands = []) : step s = .next s := by
  simp [step, h]

/-- Settles O5, one lemma for each case of the host's next command. -/
theorem stepRunsDecodedCommand : Obligations.StepRunsDecodedCommand :=
  ⟨fun _ _ _ _ hc hi => step_of_decoded hc hi, fun _ _ _ _ hc hw => step_of_undecodable hc hw,
    fun _ h => step_idle h⟩

theorem decodeCommand_reserved {c : Command} (h : c.op = 6 ∨ c.op = 7) :
    decodeCommand c = .error (.reservedOp c.op) := by
  rcases h with h | h <;> simp [decodeCommand, h]

/-- Settles O4: no arm of the three decoders takes these words. -/
theorem reservedWordsAreRefused : Obligations.ReservedWordsAreRefused := by
  refine ⟨fun s c rest hc hop => step_of_undecodable hc (decodeCommand_reserved hop), decodeRx_noState, ?_⟩
  intro source dest control hne
  rw [decodeHeader_append, if_neg hne]

end Sys2Proof.Machine
end

section
/-! The CRC Engine's statements (40_crc.md). -/

namespace Sys2Proof.Machine

/-- What the octet-first register and the bit-by-bit register differ by after `k` iterations is the octet's bits
not yet consumed: one iteration keeps this relation (40_crc.md R120). -/
theorem crcShift_xor_pending (c : Half) (b : Byte) (k : Nat) :
    crcShift (c ^^^ b.setWidth 16 >>> k) = crcBitStep b c k ^^^ b.setWidth 16 >>> (k + 1) := by
  have low : (c ^^^ b.setWidth 16 >>> k).getLsbD 0 = (c.getLsbD 0 != b.getLsbD k) := by
    simpa using fun h : b.getLsbD k = true => (BitVec.lt_of_getLsbD h).trans (by decide : 8 < 16)
  have high : (c ^^^ b.setWidth 16 >>> k) >>> 1 = c >>> 1 ^^^ b.setWidth 16 >>> (k + 1) := by
    rw [BitVec.ushiftRight_xor_distrib, ← BitVec.shiftRight_add]
  unfold crcShift crcBitStep
  rw [low, high]
  split
  · rw [BitVec.xor_assoc, BitVec.xor_comm (_ >>> _) cfg.crcPoly, ← BitVec.xor_assoc]
  · rfl

/-- Settles O6: after eight iterations no bit of the octet is left between the two registers. -/
theorem crcFormulationsAgree : Obligations.CrcFormulationsAgree := by
  intro c b
  have consumed : b.setWidth 16 >>> 8 = 0#16 := by
    rw [← BitVec.setWidth_ushiftRight (by decide), BitVec.ushiftRight_eq_zero (Nat.le_refl 8)]
    rfl
  have start : c ^^^ b.setWidth 16 = c ^^^ b.setWidth 16 >>> 0 := by rw [BitVec.ushiftRight_zero]
  simp only [crcUpdate, crcShift8, start, crcShift_xor_pending, consumed, BitVec.xor_zero]
  rfl

/-- Settles O7: a left fold over a concatenation is a fold over the second part from where the first ends. -/
theorem crcFoldSplits : Obligations.CrcFoldSplits :=
  ⟨rfl, fun _ => rfl, fun _ _ => List.foldl_append⟩

/-- Settles O8: the fold is evaluated at each vector. -/
theorem crcDerivedVectors : Obligations.CrcDerivedVectors := by
  unfold Obligations.CrcDerivedVectors
  decide +kernel

/-- Settles O9: no field of the session stands in `execCrc16`. -/
theorem crc16ReturnsChecksum : Obligations.Crc16ReturnsChecksum :=
  fun _ _ => rfl

end Sys2Proof.Machine
end

section
/-! The codec's statements on sequences: ENCBYTE, transparency and the round trip (41_codec.md R130 to R134). -/

namespace Sys2Proof.Machine

/-- Settles O10: `encodeByte` is the emission, and `encodeBytes` is its concatenation. -/
theorem encodeByteEmits : Obligations.EncodeByteEmits :=
  ⟨fun b s => congrArg Host.Outcome.next (State.emitAll_eq s (encodeByte b)), rfl, fun _ _ => rfl⟩

/-! ## The round trip -/

theorem decodeBytes_esc (x : Byte) (rest : List Byte) :
    decodeBytes (0x7D :: x :: rest) = unescape x :: decodeBytes rest :=
  if_pos rfl

theorem decodeBytes_plain {b : Byte} (h : b ≠ 0x7D) (rest : List Byte) :
    decodeBytes (b :: rest) = b :: decodeBytes rest := by
  cases rest with
  | nil => rfl
  | cons x rest => exact if_neg h

theorem decodeBytes_encodeByte (b : Byte) (rest : List Byte) :
    decodeBytes (encodeByte b ++ rest) = b :: decodeBytes rest := by
  by_cases h : b = 0x7E ∨ b = 0x7D
  · rw [encodeByte_reserved h, ← unescape_eq_xor]
    exact (decodeBytes_esc _ _).trans (by rw [unescape_unescape]; rfl)
  · rw [encodeByte_plain h]
    exact decodeBytes_plain (fun hb => h (.inr hb)) rest

/-- Settles O13, by induction on the sequence, one octet's encoding at a time. -/
theorem unescapeInvertsEscape : Obligations.UnescapeInvertsEscape := by
  intro bytes
  induction bytes with
  | nil => rfl
  | cons b rest ih => rw [encodeBytes, decodeBytes_encodeByte, ih]

/-! ## Transparency -/

theorem flag_not_mem_encodeByte (b : Byte) : (0x7E : Byte) ∉ encodeByte b := by
  by_cases h : b = 0x7E ∨ b = 0x7D
  · rw [encodeByte_reserved h]
    rcases h with rfl | rfl <;> decide
  · rw [encodeByte_plain h, List.mem_singleton]
    exact fun hb => h (.inl hb.symm)

theorem flag_not_mem_encodeBytes (bytes : List Byte) : (0x7E : Byte) ∉ encodeBytes bytes := by
  induction bytes with
  | nil => exact List.not_mem_nil
  | cons b rest ih =>
    rw [encodeBytes, List.mem_append]
    exact not_or.mpr ⟨flag_not_mem_encodeByte b, ih⟩

/-- An ESC stands only where `encodeByte` has put it, before the masked octet. -/
theorem esc_followed_by_masked (bytes : List Byte) (k : Nat)
    (hk : (encodeBytes bytes)[k]? = some (0x7D : Byte)) :
    (encodeBytes bytes)[k + 1]? = some (0x5E : Byte) ∨ (encodeBytes bytes)[k + 1]? = some (0x5D : Byte) := by
  induction bytes generalizing k with
  | nil => simp [encodeBytes] at hk
  | cons b rest ih =>
    by_cases h : b = 0x7E ∨ b = 0x7D
    · rw [encodeBytes, encodeByte_reserved h] at hk ⊢
      match k with
      | 0 =>
        rcases h with rfl | rfl
        · exact .inl rfl
        · exact .inr rfl
      | 1 => rcases h with rfl | rfl <;> simp at hk
      | k + 2 => exact ih k hk
    · rw [encodeBytes, encodeByte_plain h] at hk ⊢
      match k with
      | 0 => exact absurd (Option.some.inj hk) fun hb => h (.inr hb)
      | k + 1 => exact ih k hk

/-- Settles O12, the two halves of the guarantee. -/
theorem escapedSequenceIsTransparent : Obligations.EscapedSequenceIsTransparent :=
  fun bytes => ⟨flag_not_mem_encodeBytes bytes, esc_followed_by_masked bytes⟩

end Sys2Proof.Machine
end

section
/-! The Receive Assembler as one function of the selected micro-operation, and the statements about selection,
restart and frame (42_rx_assembler.md R141 to R152). -/

namespace Sys2Proof.Machine

/-! ## The session a micro-operation leaves -/

/-- The session after a micro-operation other than RX.FLAG.DISPATCH (R142 to R145, R147 to R151). -/
def Session.afterMicro (S : Session) : Instr → Session
  | .rxStart => restartReceiving S
  | .rxFlagShort => restartReceiving S
  | .rxOverrun _ => restartReceiving S
  | .rxUnescOverrun _ => restartReceiving S
  | .rxEsc => { S with state := .processingEscape }
  | .rxData b => S.storeReceived b
  | .rxUnesc b => { S.storeReceived (b ^^^ 0x20) with state := .receivingData }
  | _ => S

theorem State.putSession_self {s : State} {S : Session} (hS : s.session = some S) : s.putSession S = s := by
  cases s
  cases hS
  rfl

section
variable {s : State} {S : Session} {b : Byte} {i : Instr} (hS : s.session = some S)
include hS

/-- A selected micro-operation that does not dispatch completes and writes the session only. -/
theorem exec_selected (hsel : selectedBy S b i) (hi : i ≠ .rxFlagDispatch) :
    exec i s = .next (s.putSession (S.afterMicro i)) := by
  cases i with
  | rxStart => exact whenSelected_some hS (decide_eq_true hsel.1)
  | rxIdle x =>
    obtain ⟨rfl, hst, hflag⟩ := hsel
    exact (exec_rxIdle_selected hS hst hflag).trans (congrArg _ (State.putSession_self hS).symm)
  | rxEsc => exact exec_rxEsc_selected hS hsel.1
  | rxFlagIdle =>
    obtain ⟨hst, -, h0⟩ := hsel
    exact (exec_rxFlagIdle_selected hS hst h0).trans (congrArg _ (State.putSession_self hS).symm)
  | rxFlagDispatch => exact absurd rfl hi
  | rxFlagShort =>
    obtain ⟨hst, -, hindex⟩ := hsel
    exact whenSelected_some hS (decide_eq_true ⟨hst, hindex⟩)
  | rxData x =>
    obtain ⟨rfl, hst, hesc, hflag, hindex⟩ := hsel
    exact exec_rxData_selected hS hst hesc hflag hindex
  | rxOverrun x =>
    obtain ⟨rfl, hst, hesc, hflag, hindex⟩ := hsel
    exact whenSelected_some hS (decide_eq_true ⟨hst, hflag, hesc, hindex⟩)
  | rxUnesc x =>
    obtain ⟨rfl, hst, hindex⟩ := hsel
    exact exec_rxUnesc_selected hS hst hindex
  | rxUnescOverrun x =>
    obtain ⟨rfl, hst, hindex⟩ := hsel
    exact whenSelected_some hS (decide_eq_true ⟨hst, hindex⟩)
  | dispatch | init | rxbyte | txframe | txraw | crc16 | encbyte => exact hsel.elim

/-- RX.FLAG.DISPATCH has no bound of its own above 256: DISPATCH refuses there. -/
theorem exec_rxFlagDispatch_selected (hst : S.state = .receivingData) (hindex : 5 < S.receiveIndex) :
    exec .rxFlagDispatch s =
      andThen (dispatchFrame S s) fun u => .next (u.mapSession restartReceiving) :=
  whenSelected_some hS (decide_eq_true ⟨hst, hindex⟩)

/-- The condition a micro-operation tests is that some octet selects it. -/
theorem exec_unselected (hi : isReceive i = true) (hsel : ∀ b, ¬ selectedBy S b i) :
    exec i s = .refused .notSelected := by
  cases i with
  | rxStart => exact whenSelected_not hS (decide_eq_false fun h => hsel _ ⟨h, rfl⟩)
  | rxIdle b => exact whenSelected_not hS (decide_eq_false fun h => hsel b ⟨rfl, h⟩)
  | rxEsc => exact whenSelected_not hS (decide_eq_false fun h => hsel _ ⟨h, rfl⟩)
  | rxFlagIdle => exact whenSelected_not hS (decide_eq_false fun ⟨h, h0⟩ => hsel _ ⟨h, rfl, h0⟩)
  | rxFlagDispatch => exact whenSelected_not hS (decide_eq_false fun ⟨h, h5⟩ => hsel _ ⟨h, rfl, h5⟩)
  | rxFlagShort => exact whenSelected_not hS (decide_eq_false fun ⟨h, hr⟩ => hsel _ ⟨h, rfl, hr⟩)
  | rxData b =>
    exact whenSelected_not hS (decide_eq_false fun ⟨h, hf, he, hr⟩ => hsel b ⟨rfl, h, he, hf, hr⟩)
  | rxOverrun b =>
    exact whenSelected_not hS (decide_eq_false fun ⟨h, hf, he, hr⟩ => hsel b ⟨rfl, h, he, hf, hr⟩)
  | rxUnesc b => exact whenSelected_not hS (decide_eq_false fun h => hsel b ⟨rfl, h⟩)
  | rxUnescOverrun b => exact whenSelected_not hS (decide_eq_false fun h => hsel b ⟨rfl, h⟩)
  | dispatch | init | rxbyte | txframe | txraw | crc16 | encbyte => cases hi

end

/-! ## The micro-operation RXBYTE runs -/

/-- The micro-operation RXBYTE runs, by the branches of R141. -/
def Session.microOf (S : Session) (b : Byte) : Instr :=
  match S.state with
  | .awaitingStart => if b = 0x7E then .rxStart else .rxIdle b
  | .receivingData =>
    if b = 0x7D then .rxEsc
    else if b = 0x7E ∧ S.receiveIndex = 0 then .rxFlagIdle
    else if b = 0x7E ∧ 5 < S.receiveIndex then .rxFlagDispatch
    else if b = 0x7E then .rxFlagShort
    else if S.receiveIndex < 256 then .rxData b
    else .rxOverrun b
  | .processingEscape => if S.receiveIndex < 256 then .rxUnesc b else .rxUnescOverrun b

theorem exec_rxbyte {s : State} {S : Session} (hS : s.session = some S) (b : Byte) :
    exec (.rxbyte b) s = exec (S.microOf b) s := by
  refine (withSession_some hS).trans ?_
  unfold Session.microOf
  cases S.state <;> simp only [apply_ite (exec · s)] <;> rfl

/-- The branches of R141 agree with the "Selected when" lines, except above index 256, where no octet selects
the overrun rows. -/
theorem microOf_selected_or (S : Session) (b : Byte) :
    selectedBy S b (S.microOf b) ∨
      256 < S.receiveIndex ∧ ∀ x, ¬ selectedBy S x (S.microOf b) := by
  unfold Session.microOf
  cases hst : S.state with
  | awaitingStart =>
    dsimp only
    split
    · exact .inl ⟨hst, ‹_›⟩
    · exact .inl ⟨rfl, hst, ‹_›⟩
  | receivingData =>
    dsimp only
    split_ifs with hesc h0 h5 hflag hlt
    · exact .inl ⟨hst, hesc⟩
    · exact .inl ⟨hst, h0⟩
    · exact .inl ⟨hst, h5⟩
    · simp only [hflag, true_and] at h0 h5
      exact .inl ⟨hst, hflag, by omega, by omega⟩
    · exact .inl ⟨rfl, hst, hesc, hflag, hlt⟩
    · rcases Nat.lt_or_ge 256 S.receiveIndex with hgt | hle
      · exact .inr ⟨hgt, fun x ⟨_, _, _, _, heq⟩ => by omega⟩
      · exact .inl ⟨rfl, hst, hesc, hflag, by omega⟩
  | processingEscape =>
    dsimp only
    split_ifs with hlt
    · exact .inl ⟨rfl, hst, hlt⟩
    · rcases Nat.lt_or_ge 256 S.receiveIndex with hgt | hle
      · exact .inr ⟨hgt, fun x ⟨_, _, heq⟩ => by omega⟩
      · exact .inl ⟨rfl, hst, by omega⟩

theorem microOf_selected {S : Session} (b : Byte) (hindex : S.receiveIndex ≤ 256) :
    selectedBy S b (S.microOf b) :=
  (microOf_selected_or S b).resolve_right fun h => absurd h.1 (by omega)

theorem isReceive_microOf (S : Session) (b : Byte) : isReceive (S.microOf b) = true := by
  unfold Session.microOf
  cases S.state <;> dsimp only <;> split_ifs <;> rfl

/-- The receive word holds what the selection reads, but for the index, which the decoder takes beside it. -/
theorem decodeRx_of_selected {S : Session} {b : Byte} {i : Instr} (h : selectedBy S b i) :
    decodeRx (rxWord S.state b) S.receiveIndex = .ok i := by
  rw [rxWord]
  cases i with
  | rxStart =>
    obtain ⟨hst, rfl⟩ := h
    rw [hst]
    rfl
  | rxIdle x =>
    obtain ⟨rfl, hst, hflag⟩ := h
    rw [hst]
    exact (decodeRx_awaiting x _).trans (if_neg hflag)
  | rxEsc =>
    obtain ⟨hst, rfl⟩ := h
    rw [hst]
    rfl
  | rxFlagIdle =>
    obtain ⟨hst, rfl, h0⟩ := h
    rw [hst, h0]
    rfl
  | rxFlagDispatch =>
    obtain ⟨hst, rfl, h5⟩ := h
    rw [hst]
    refine (decodeRx_receiving 0x7E _).trans ?_
    simp [h5, show S.receiveIndex ≠ 0 by omega]
  | rxFlagShort =>
    obtain ⟨hst, rfl, hshort⟩ := h
    rw [hst]
    refine (decodeRx_receiving 0x7E _).trans ?_
    simp [hshort, show S.receiveIndex ≠ 0 by omega]
  | rxData x =>
    obtain ⟨rfl, hst, hesc, hflag, hlt⟩ := h
    rw [hst]
    refine (decodeRx_receiving x _).trans ?_
    simp only [hesc, hflag, hlt, if_false, if_true, false_and]
  | rxOverrun x =>
    obtain ⟨rfl, hst, hesc, hflag, heq⟩ := h
    rw [hst]
    refine (decodeRx_receiving x _).trans ?_
    simp only [hesc, hflag, heq, if_false, if_true, false_and, Nat.lt_irrefl]
  | rxUnesc x =>
    obtain ⟨rfl, hst, hlt⟩ := h
    rw [hst]
    exact (decodeRx_escape x _).trans (if_pos hlt)
  | rxUnescOverrun x =>
    obtain ⟨rfl, hst, heq⟩ := h
    rw [hst, heq]
    exact decodeRx_escape x 256
  | dispatch | init | rxbyte | txframe | txraw | crc16 | encbyte => exact h.elim

/-- Settles O14: the one selected is `microOf`, and no other is, for the word decodes to one operation. -/
theorem rxbyteRunsTheOneSelected : Obligations.RxbyteRunsTheOneSelected := by
  intro S b hindex
  have hsel := microOf_selected b hindex
  have hdec := decodeRx_of_selected hsel
  refine ⟨S.microOf b, hsel, fun j hj => ?_, hdec, fun s hS => exec_rxbyte hS b⟩
  exact Except.ok.inj ((decodeRx_of_selected hj).symm.trans hdec)

/-- Settles O15: what is tested is what selects. -/
theorem unselectedOperationIsRefused : Obligations.UnselectedOperationIsRefused := by
  intro s S hS
  refine ⟨fun i hi hsel => exec_unselected hS hi hsel, fun source dest control hne => ?_⟩
  refine (withSession_some hS).trans (if_neg fun ⟨hs, hd, hc⟩ => hne ?_)
  rw [← hs, ← hd, ← hc]
  rfl

/-! ## What a micro-operation or RXBYTE can do -/

/-- If it answers a next state, some octet selected it; it wrote the session alone, or it dispatched and reset. -/
theorem exec_receive_next {i : Instr} {s t : State} {S : Session} (hS : s.session = some S)
    (hi : isReceive i = true ∨ ∃ b, i = .rxbyte b) (h : exec i s = .next t) :
    ∃ b j, (i = j ∨ i = .rxbyte b) ∧ selectedBy S b j ∧
      (j ≠ .rxFlagDispatch ∧ t = s.putSession (S.afterMicro j) ∨
       j = .rxFlagDispatch ∧ ∃ u, dispatchFrame S s = .next u ∧ t = u.mapSession restartReceiving) := by
  obtain ⟨b, j, hij, hsel, hj⟩ :
      ∃ b j, (i = j ∨ i = .rxbyte b) ∧ selectedBy S b j ∧ exec j s = .next t := by
    rcases hi with hi | ⟨b, rfl⟩
    · by_cases hsel : ∃ b, selectedBy S b i
      · obtain ⟨b, hsel⟩ := hsel
        exact ⟨b, i, .inl rfl, hsel, h⟩
      · rw [exec_unselected hS hi (not_exists.mp hsel)] at h
        cases h
    · rw [exec_rxbyte hS] at h
      rcases microOf_selected_or S b with hsel | ⟨_, hnone⟩
      · exact ⟨b, S.microOf b, .inr rfl, hsel, h⟩
      · rw [exec_unselected hS (isReceive_microOf S b) hnone] at h
        cases h
  refine ⟨b, j, hij, hsel, ?_⟩
  by_cases hd : j = .rxFlagDispatch
  · subst hd
    obtain ⟨hst, -, h5⟩ := hsel
    rw [exec_rxFlagDispatch_selected hS hst h5] at hj
    obtain ⟨u, hu, ht⟩ := andThen_next hj
    exact .inr ⟨rfl, u, hu, (Host.Outcome.next.inj ht).symm⟩
  · rw [exec_selected hS hsel hd] at hj
    exact .inl ⟨hd, (Host.Outcome.next.inj hj).symm⟩

/-! ## The reset of the session -/

theorem restartOf_restartReceiving (S : Session) : restartOf S (restartReceiving S) :=
  ⟨rfl, fun _ => ⟨rfl, rfl, rfl⟩⟩

/-- Settles O16: RX.START leaves `restartReceiving`. -/
theorem startResetsAndReceives : Obligations.StartResetsAndReceives :=
  fun _ S hS hst => ⟨restartReceiving S,
    exec_selected hS (b := 0x7E) (i := .rxStart) ⟨hst, rfl⟩ (by simp), restartOf_restartReceiving S⟩

/-- Settles O19: RX.FLAG.SHORT leaves `restartReceiving`. -/
theorem shortFrameIsDropped : Obligations.ShortFrameIsDropped :=
  fun _ S hS hst h0 h5 => ⟨restartReceiving S,
    exec_selected hS (b := 0x7E) (i := .rxFlagShort) ⟨hst, rfl, h0, h5⟩ (by simp),
    restartOf_restartReceiving S⟩

/-- Settles O22: both overrun rows leave `restartReceiving`. -/
theorem overrunDiscardsFrame : Obligations.OverrunDiscardsFrame :=
  ⟨fun _ S b hS hst hesc hflag hindex => ⟨restartReceiving S,
      exec_selected hS (i := .rxOverrun b) ⟨rfl, hst, hesc, hflag, hindex⟩ (by simp),
      restartOf_restartReceiving S⟩,
    fun _ S b hS hst hindex => ⟨restartReceiving S,
      exec_selected hS (i := .rxUnescOverrun b) ⟨rfl, hst, hindex⟩ (by simp),
      restartOf_restartReceiving S⟩⟩

/-! ## The frame of the nine -/

theorem afterMicro_eq (S : Session) (i : Instr) :
    S.afterMicro i = { S with
      receiveIndex := (S.afterMicro i).receiveIndex
      state := (S.afterMicro i).state
      rxb := (S.afterMicro i).rxb
      txb := (S.afterMicro i).txb
      plb := (S.afterMicro i).plb } := by
  cases i <;> rfl

/-- Settles O26: the session is `afterMicro`, whose three kinds are a store, a change of `state` at most, and a
restart. -/
theorem assemblingIsSilent : Obligations.AssemblingIsSilent := by
  intro i s t S b hsel hi hS hwf h
  rw [exec_selected hS hsel hi] at h
  refine ⟨S.afterMicro i, (Host.Outcome.next.inj h).symm, afterMicro_eq S i, ?_, ?_, ?_⟩
  · rintro (rfl | rfl)
    · exact ⟨rfl, rfl, storeReceived_read_other hwf b⟩
    · exact ⟨rfl, rfl, storeReceived_read_other hwf (b ^^^ 0x20)⟩
  · rintro (rfl | rfl | rfl) <;> exact ⟨rfl, rfl, rfl⟩
  · rintro (rfl | rfl | rfl | rfl) <;> exact fun _ => ⟨rfl, rfl, rfl⟩

end Sys2Proof.Machine
end

section
/-! The Transmit Framer's other statements: what it refuses, what it raises and how much it emits
(44_tx_framer.md R180 to R187). -/

namespace Sys2Proof.Machine

theorem transmitFrame_overlong {payload : List Byte} (S : Session) (s : State) (h : 251 < payload.length) :
    transmitFrame payload S s = .next (s.raise (.lenError payload.length)) :=
  if_pos h

theorem transmitFrame_noPeer {payload : List Byte} {S : Session} (s : State) (h : payload.length ≤ 251)
    (hp : S.peerSourceAddress = none) : transmitFrame payload S s = .refused .noPeer := by
  refine (if_neg (Nat.not_lt.mpr h)).trans ?_
  rw [hp]

/-- Settles O32: the length is checked before the peer is looked at. -/
theorem overlongFrameRaisesLenError : Obligations.OverlongFrameRaisesLenError :=
  fun s S _ hS hlen => (withSession_some hS).trans (transmitFrame_overlong S s hlen)

/-- Settles O33: the length is legal, and there is no destination. -/
theorem frameWithoutPeerIsRefused : Obligations.FrameWithoutPeerIsRefused :=
  fun s _ _ hS hlen hp => (withSession_some hS).trans (transmitFrame_noPeer s hlen hp)

theorem length_wireFrame (body : List Byte) : (wireFrame body).length = 2 + (encodeBytes body).length := by
  simp [wireFrame]
  omega

/-- Settles O35: two FLAGs, and a body of `5 + len` octets of which each takes one octet or two. -/
theorem frameSizeOnTheWire : Obligations.FrameSizeOnTheWire := by
  intro s t payload h hlen
  obtain ⟨S, hS, h⟩ := withSession_next h
  rcases transmitFrame_next h with ⟨hlong, _⟩ | ⟨_, peer, _, rfl⟩
  · omega
  · refine ⟨_, State.emitAll_sink _ _, ?_⟩
    generalize hbody : (buildBody S.txb S.ownAddress peer payload).slice 0 (5 + payload.length) = body
    have hlength : body.length = 5 + payload.length := by rw [← hbody, Memory.length_slice]
    have hsize := length_encodeBytes body
    rw [length_wireFrame]
    omega

/-- Settles O36: the session is asked for and not read. -/
theorem rawFrameIsEmitted : Obligations.RawFrameIsEmitted := by
  intro s S payload hS
  refine ⟨fun h => (withSession_some hS).trans (if_pos h), fun h => ?_⟩
  refine (withSession_some hS).trans ((if_neg (Nat.not_lt.mpr h)).trans ?_)
  rw [State.emitAll_eq, wireFrame_eq]
  rfl

/-! ## What a transmission writes -/

/-- `t` is `s`, with session `S`, after a frame of `len` octets was sent or turned away: only TXB, the events and
the sink differ, and TXB only below the frame's end and only when something is emitted (R180, R182, R183). -/
def sends (S : Session) (s t : State) (len : Nat) : Prop :=
  ∃ txb es bs,
    t = { s with
          session := some { S with txb := txb }
          events := s.events ++ es
          sink := s.sink ++ bs } ∧
    (es = [] ∨ ∃ n, es = [.lenError n]) ∧
    (bs = [] → txb = S.txb) ∧
    (S.txb.wf = true → txb.wf = true ∧ ∀ k, 5 + len ≤ k → txb.read k = S.txb.read k)

section
variable {S : Session} {s : State} (hS : s.session = some S)
include hS

theorem sends_self (len : Nat) : sends S s s len := by
  refine ⟨S.txb, [], [], ?_, .inl rfl, fun _ => rfl, fun hwf => ⟨hwf, fun _ _ => rfl⟩⟩
  rw [List.append_nil, List.append_nil, ← hS]

theorem sends_raise_lenError (n len : Nat) : sends S s (s.raise (.lenError n)) len := by
  refine ⟨S.txb, [.lenError n], [], ?_, .inr ⟨n, rfl⟩, fun _ => rfl, fun hwf => ⟨hwf, fun _ _ => rfl⟩⟩
  rw [List.append_nil, ← hS]
  rfl

theorem transmitFrame_sends {payload : List Byte} {t : State} (h : transmitFrame payload S s = .next t) :
    sends S s t payload.length := by
  rcases transmitFrame_next h with ⟨_, rfl⟩ | ⟨_, peer, _, rfl⟩
  · exact sends_raise_lenError hS _ _
  · refine ⟨buildBody S.txb S.ownAddress peer payload, [],
      wireFrame ((buildBody S.txb S.ownAddress peer payload).slice 0 (5 + payload.length)), ?_, .inl rfl,
      fun hnil => absurd hnil (List.cons_ne_nil _ _),
      fun hwf => ⟨buildBody_wf hwf _ _ _, read_buildBody_beyond hwf _ _ _⟩⟩
    rw [State.emitAll_eq, List.append_nil]
    rfl

theorem sendReply_sends {n : Int} {t : State} (h : sendReply n S s = .next t) : sends S s t n.toNat := by
  rcases sendReply_next h with ⟨_, rfl⟩ | ⟨_, rfl⟩ | ⟨_, _, h⟩
  · exact sends_self hS _
  · exact sends_raise_lenError hS _ _
  · have := transmitFrame_sends hS h
    rwa [Memory.length_slice] at this

end

end Sys2Proof.Machine
end

section
/-! The Frame Dispatcher's other statements: the checksum, acceptance, the reply and the frame
(43_dispatcher.md R160 to R168), and the closing FLAG that runs it (42_rx_assembler.md R146, R152). -/

namespace Sys2Proof.Machine

/-! ## Each outcome of DISPATCH -/

theorem checksumFails_eq_false_iff (S : Session) :
    S.extractFrame.checksumFails = false ↔ S.crcCheckEnable = false ∨
      crc16 (S.rxb.slice 0 (S.receiveIndex - 2)) =
        S.rxb.read (S.receiveIndex - 2) ++ S.rxb.read (S.receiveIndex - 1) := by
  rw [← Bool.not_eq_true, checksumFails_iff, not_and_or, Bool.not_eq_true, not_not]

theorem dispatchFrame_outOfRange {S : Session} (s : State) (h : S.receiveIndex < 5 ∨ 256 < S.receiveIndex) :
    dispatchFrame S s = .refused (.dispatchLength S.receiveIndex) :=
  if_pos h

theorem length_in_contract {n : Nat} (h5 : 5 ≤ n) (h256 : n ≤ 256) :
    ¬ (n < cfg.minFrame ∨ cfg.capacity < n) := by
  rw [cfg_minFrame, cfg_capacity]
  omega

section
variable {S : Session} (s : State) (h5 : 5 ≤ S.receiveIndex) (h256 : S.receiveIndex ≤ 256)
  (hp : S.passesFilter = true)
include h5 h256 hp

theorem dispatchFrame_corrupt (hc : S.extractFrame.checksumFails = true) :
    dispatchFrame S s = .next ((s.putSession S.extractFrame).raise .crcError) := by
  have hlen := length_in_contract h5 h256
  simp [dispatchFrame, hlen, hp, hc]

theorem dispatchFrame_breach {how : ContractBreach} (hc : S.extractFrame.checksumFails = false)
    (ht : nextTurn s = .breaks how) : dispatchFrame S s = .refused (.processorContract how) := by
  have hlen := length_in_contract h5 h256
  simp [dispatchFrame, hlen, hp, hc, callProcessor, ht]

end

section
variable {n : Int} (S : Session) (s : State)

theorem sendReply_none (h : n ≤ 0) : sendReply n S s = .next s :=
  if_pos h

theorem sendReply_overlong (h : 251 < n) : sendReply n S s = .next (s.raise (.lenError n.toNat)) :=
  (if_neg (by omega)).trans (if_pos h)

theorem sendReply_frame (h0 : 0 < n) (h : n ≤ 251) :
    sendReply n S s = transmitFrame (S.plb.slice 0 n.toNat) S s :=
  (if_neg (by omega)).trans (if_neg (Int.not_lt.mpr h))

end

theorem afterCall_eq (s : State) (n : Nat) (V : Session) (a : ProcAnswer) :
    afterCall s n V a =
      { afterTurn s with session := some (V.processed a), calls := s.calls ++ [⟨n, V⟩] } := by
  rw [← afterTurn_calls s]
  rfl

/-! ## The payload in PLB -/

section
variable {S : Session} (hwf : S.plb.wf = true)
include hwf

theorem extractFrame_plb_payload (k : Nat) (hk : k < S.receiveIndex - 5) :
    S.extractFrame.plb.read k = S.rxb.read (3 + k) := by
  have hlen : S.framePayload.length = S.receiveIndex - 5 := Memory.length_slice _ _ _
  refine (Memory.read_fill hwf 0 S.framePayload k).trans ?_
  rw [dif_pos (by omega)]
  exact Memory.getElem_slice S.rxb 3 (S.receiveIndex - 5) k _

theorem extractFrame_plb_beyond (k : Nat) (hk : S.receiveIndex - 5 ≤ k) :
    S.extractFrame.plb.read k = S.plb.read k := by
  have hlen : S.framePayload.length = S.receiveIndex - 5 := Memory.length_slice _ _ _
  refine (Memory.read_fill hwf 0 S.framePayload k).trans ?_
  rw [dif_neg (by omega)]

end

/-! ## The statements -/

/-- Settles O28: the buffer is the one `Session.extractFrame` leaves. -/
theorem badChecksumRaisesCrcError : Obligations.BadChecksumRaisesCrcError := by
  intro s S hS h5 h256 hdest hctrl hen hwf hne
  refine ⟨S.extractFrame.plb, ?_, extractFrame_plb_payload hwf, extractFrame_plb_beyond hwf⟩
  rw [exec_dispatch_selected hS, dispatchFrame_corrupt s h5 h256 ((passesFilter_iff S).mpr ⟨hdest, hctrl⟩)
    ((checksumFails_iff S).mpr ⟨hen, hne⟩)]
  rfl

/-- Settles O30: the length is checked first, the contract only at the call. -/
theorem dispatchOutsideContractIsRefused : Obligations.DispatchOutsideContractIsRefused := by
  constructor
  · intro s S hS hlen
    rw [exec_dispatch_selected hS, dispatchFrame_outOfRange s hlen]
  · intro s S how hS h5 h256 hdest hctrl hcrc hturn
    rw [exec_dispatch_selected hS, dispatchFrame_breach s h5 h256 ((passesFilter_iff S).mpr ⟨hdest, hctrl⟩)
      ((checksumFails_eq_false_iff S).mpr hcrc) hturn]

/-- Settles O29: the processor sees `S.extractFrame.accept`, and each clause of the reply decision is one lemma. -/
theorem acceptedFrameIsProcessedAndAnswered : Obligations.AcceptedFrameIsProcessedAndAnswered := by
  intro s S a hS h5 h256 hdest hctrl hwf hcrc hturn
  have hexec : exec (.dispatch (S.rxb.read 0) (S.rxb.read 1) (S.rxb.read 2)) s =
      sendReply a.reply (S.extractFrame.accept.processed a)
        (afterCall s (S.receiveIndex - 5) S.extractFrame.accept a) := by
    rw [exec_dispatch_selected hS, dispatchFrame_accepted h5 h256 ((passesFilter_iff S).mpr ⟨hdest, hctrl⟩)
      ((checksumFails_eq_false_iff S).mpr hcrc) hturn]
  rw [hexec]
  refine ⟨S.extractFrame.accept, S.extractFrame.accept.processed a, _, ?_,
    extractFrame_plb_payload hwf, extractFrame_plb_beyond hwf, rfl, afterCall_eq _ _ _ _,
    fun h => sendReply_none _ _ h, fun h => ?_, fun h0 h => ?_⟩
  · rw [← hctrl]
    rfl
  · rw [sendReply_overlong _ _ h, ← afterTurn_events s]
    rfl
  · rw [sendReply_frame _ _ h0 h]
    rfl

/-- What DISPATCH can do, with the reply decision resolved (R168). -/
theorem dispatchFrame_effect {S : Session} {s t : State} (h : dispatchFrame S s = .next t) :
    t = s ∨
    (S.passesFilter = true ∧ S.extractFrame.checksumFails = true ∧
      t = (s.putSession S.extractFrame).raise .crcError) ∨
    (S.passesFilter = true ∧ S.extractFrame.checksumFails = false ∧ ∃ a, nextTurn s = .returns a ∧
      sends (S.extractFrame.accept.processed a)
        (afterCall s (S.receiveIndex - 5) S.extractFrame.accept a) t a.reply.toNat) := by
  obtain ⟨-, -, ⟨-, ht⟩ | hcorrupt | ⟨hp, hc, a, ha, h⟩⟩ := dispatchFrame_next h
  · exact .inl ht
  · exact .inr (.inl hcorrupt)
  · exact .inr (.inr ⟨hp, hc, a, ha, sendReply_sends rfl h⟩)

theorem exec_dispatch_next {source dest control : Byte} {s t : State} {S : Session}
    (hS : s.session = some S) (h : exec (.dispatch source dest control) s = .next t) :
    dispatchFrame S s = .next t := by
  replace h := (withSession_some hS).symm.trans h
  split at h
  · exact h
  · cases h

section
variable (s : State) (n : Nat) (V : Session) (a : ProcAnswer)

@[simp] theorem afterCall_session : (afterCall s n V a).session = some (V.processed a) := rfl
@[simp] theorem afterCall_calls : (afterCall s n V a).calls = s.calls ++ [⟨n, V⟩] := by simp [afterCall]
@[simp] theorem afterCall_sink : (afterCall s n V a).sink = s.sink := by simp [afterCall]
@[simp] theorem afterCall_events : (afterCall s n V a).events = s.events := by simp [afterCall]
@[simp] theorem afterCall_results : (afterCall s n V a).results = s.results := by simp [afterCall]

end

/-- The processor's writes and the payload are the only stores to PLB (R163, R166). -/
theorem processed_plb_other {S : Session} (hwf : S.plb.wf = true) (a : ProcAnswer) (k : Nat)
    (hk : S.receiveIndex - 5 ≤ k) (hw : ∀ w ∈ a.writes, w.1.val ≠ k) :
    (S.extractFrame.accept.processed a).plb.read k = S.plb.read k :=
  (Memory.read_applyWrites_other (Memory.fill_wf hwf 0 S.framePayload) a.writes k hw).trans
    (extractFrame_plb_beyond hwf k hk)

/-- Settles O31, by cases on what DISPATCH did: nothing, CrcError, or a call and the reply decision. -/
theorem dispatchChangesOnlyItsOwn : Obligations.DispatchChangesOnlyItsOwn := by
  intro source dest control s t S T h hS hT hplb htxb
  replace h := exec_dispatch_next hS h
  obtain ⟨T', hT', hrxb, hindex, hst, hown, hen, hcommands, hresults⟩ := dispatchFrame_session hS h
  obtain rfl : T' = T := Option.some.inj (hT'.symm.trans hT)
  refine ⟨hrxb, hindex, hst, hown, hen, hcommands, hresults, ?_⟩
  rcases dispatchFrame_effect h with rfl | ⟨-, -, rfl⟩ | ⟨-, -, a, ha, txb, es, bs, rfl, -, hnil, hbeyond⟩
  · obtain rfl : S = T' := Option.some.inj (hS.symm.trans hT)
    exact ⟨fun _ => rfl, fun _ _ => ⟨fun _ _ _ => rfl, fun _ _ => rfl⟩, fun _ => ⟨rfl, rfl⟩⟩
  · obtain rfl : S.extractFrame = T' := Option.some.inj hT
    exact ⟨fun _ => rfl, fun _ _ => ⟨fun k hk _ => extractFrame_plb_beyond hplb k hk, fun _ _ => rfl⟩,
      fun _ => ⟨rfl, rfl⟩⟩
  · obtain rfl := Option.some.inj hT
    refine ⟨fun hsink => hnil (by simpa using hsink), fun a' ha' => ?_, fun hcalls => ?_⟩
    · obtain rfl : a = a' := ProcTurn.returns.inj (ha.symm.trans ha')
      exact ⟨processed_plb_other hplb a, (hbeyond htxb).2⟩
    · simp at hcalls

/-! ## The closing FLAG -/

/-- Settles O23: RX.FLAG.DISPATCH is selected, and runs the same `dispatchFrame`. -/
theorem closingFlagDispatchesThenResets : Obligations.ClosingFlagDispatchesThenResets := by
  intro s S hS hst hindex
  rw [exec_dispatch_selected hS, exec_rxFlagDispatch_selected hS hst hindex]
  constructor
  · intro t T ht hT
    refine ⟨restartReceiving T, ?_, restartOf_restartReceiving T⟩
    rw [ht, andThen, State.mapSession, hT]
    rfl
  · intro r hr
    rw [hr]
    rfl

/-- With a peer, which acceptance has written, no reply decision is refused (R167). -/
theorem sendReply_completes {n : Int} {S : Session} {peer : Byte} (s : State)
    (hp : S.peerSourceAddress = some peer) : ∃ t, sendReply n S s = .next t := by
  rcases le_or_gt n 0 with h0 | h0
  · exact ⟨_, sendReply_none S s h0⟩
  · rcases lt_or_ge 251 n with h | h
    · exact ⟨_, sendReply_overlong S s h⟩
    · rw [sendReply_frame S s h0 h]
      exact ⟨_, transmitFrame_of_peer hp (by rw [Memory.length_slice]; omega)⟩

theorem dispatchFrame_completes {S : Session} {s : State} {a : ProcAnswer} (h5 : 5 ≤ S.receiveIndex)
    (h256 : S.receiveIndex ≤ 256) (ha : nextTurn s = .returns a) : ∃ t, dispatchFrame S s = .next t := by
  cases hp : S.passesFilter with
  | false => exact ⟨s, dispatchFrame_filtered s h5 h256 hp⟩
  | true =>
    cases hc : S.extractFrame.checksumFails with
    | true => exact ⟨_, dispatchFrame_corrupt s h5 h256 hp hc⟩
    | false =>
      rw [dispatchFrame_accepted h5 h256 hp hc ha]
      exact sendReply_completes _ rfl

/-- Settles O24: DISPATCH completes and keeps the configuration, and the reset after it does the rest. -/
theorem closingFlagCompletes : Obligations.ClosingFlagCompletes := by
  intro s S a hS hst h6 h256 ha
  obtain ⟨u, hu⟩ := dispatchFrame_completes (by omega) h256 ha
  obtain ⟨U, hU, -, -, -, hown, hen, -, -⟩ := dispatchFrame_session hS hu
  refine ⟨u.mapSession restartReceiving, restartReceiving U, ?_, ?_, rfl, rfl, hown, hen,
    fun _ => ⟨rfl, rfl, rfl⟩⟩
  · rw [exec_rxFlagDispatch_selected hS hst (by omega), hu]
    rfl
  · rw [State.mapSession_session, hU]
    rfl

theorem afterMicro_index_le {S : Session} {b : Byte} {i : Instr} (hsel : selectedBy S b i)
    (h256 : S.receiveIndex ≤ 256) : (S.afterMicro i).receiveIndex ≤ 256 := by
  cases i with
  | rxStart | rxFlagShort | rxOverrun | rxUnescOverrun => exact Nat.zero_le 256
  | rxData x =>
    obtain ⟨-, -, -, -, hlt⟩ := hsel
    exact hlt
  | rxUnesc x =>
    obtain ⟨-, -, hlt⟩ := hsel
    exact hlt
  | _ => exact h256

/-- Settles O25: the micro-operation RXBYTE runs is selected, and so completes; RX.FLAG.DISPATCH as in
`closingFlagCompletes`. -/
theorem rxbyteCompletes : Obligations.RxbyteCompletes := by
  intro s S a b hS h256 ha
  rw [exec_rxbyte hS]
  have hsel := microOf_selected b h256
  by_cases hd : S.microOf b = .rxFlagDispatch
  · rw [hd] at hsel ⊢
    obtain ⟨hst, -, h5⟩ := hsel
    obtain ⟨t, T, ht, hT, -, hindex, hown, hen, -⟩ := closingFlagCompletes s S a hS hst h5 h256 ha
    exact ⟨t, T, ht, hT, by omega, hown, hen⟩
  · refine ⟨_, _, exec_selected hS hsel hd, rfl, afterMicro_index_le hsel h256, ?_, ?_⟩
    · rw [afterMicro_eq]
    · rw [afterMicro_eq]

end Sys2Proof.Machine
end

section
/-! Reset and initialisation (70_reset_and_hazards.md R230, R231; 10_state.md R36). -/

namespace Sys2Proof.Machine

/-- Settles O37: the session is `initialSession`, whatever stood before it. -/
theorem initMakesFreshSession : Obligations.InitMakesFreshSession :=
  fun _ own crcEn =>
    ⟨initialSession own crcEn, rfl, rfl, rfl, rfl, rfl, rfl, rfl, rfl, fun _ => ⟨rfl, rfl, rfl⟩⟩

/-- Settles O38: the two states are the same data. -/
theorem resetIsWhatInitLeaves : Obligations.ResetIsWhatInitLeaves :=
  rfl

theorem withSession_none {s : State} (h : s.session = none) (f : Session → Host.Outcome State Fault Refusal) :
    withSession s f = .refused .noSession := by
  rw [withSession, h]

/-- Settles O39: the three do not ask for a session, and every other operation does so first. -/
theorem nothingRunsBeforeInit : Obligations.NothingRunsBeforeInit := by
  intro s i hs
  cases i with
  | init | crc16 | encbyte => exact ⟨_, rfl⟩
  | _ => exact withSession_none hs _

theorem initialSession_inv (own : Byte) (crcEn : Bool) : (initialSession own crcEn).Inv where
  index_le := Nat.zero_le _
  awaiting_index := fun _ => rfl
  rxb_blank := fun _ _ => rfl
  plb_blank := fun _ => rfl
  txb_within := fun _ _ => rfl
  control_value := fun _ h => by cases h
  peer_with_control := rfl
  peer_after_crc := fun h => by cases h
  rxb_wf := rfl
  txb_wf := rfl
  plb_wf := rfl

/-- Settles O40: the reset session is what INIT leaves. -/
theorem resetMeetsInvariant : Obligations.ResetMeetsInvariant := by
  intro S hS
  obtain rfl : initialSession 0x00 true = S := Option.some.inj hS
  exact initialSession_inv _ _

end Sys2Proof.Machine
end

section
/-! The invariant (10_state.md R35): each shared operation keeps it, and so does every step. -/

namespace Sys2Proof.Machine

/-- The part of the invariant that DISPATCH keeps on its own; the buffers are restored by the reset after it. -/
structure Session.PeersAgree (S : Session) : Prop where
  control_value : ∀ c, S.controlByte = some c → c = 0x13
  peer_with_control : S.peerSourceAddress.isSome = S.controlByte.isSome
  peer_after_crc : S.peerSourceAddress.isSome = true → S.expectedCrc.isSome = true

theorem Session.Inv.peersAgree {S : Session} (h : S.Inv) : S.PeersAgree :=
  ⟨h.control_value, h.peer_with_control, h.peer_after_crc⟩

theorem restartReceiving_inv {S : Session} (h : S.PeersAgree) : (restartReceiving S).Inv where
  index_le := Nat.zero_le _
  awaiting_index := fun _ => rfl
  rxb_blank := fun _ _ => rfl
  plb_blank := fun _ => rfl
  txb_within := fun _ _ => rfl
  control_value := h.control_value
  peer_with_control := h.peer_with_control
  peer_after_crc := h.peer_after_crc
  rxb_wf := rfl
  txb_wf := rfl
  plb_wf := rfl

/-- A store at `receive_index` keeps RXB blank from the new index on. -/
theorem storeReceived_inv {S : Session} (h : S.Inv) (hst : S.state ≠ .awaitingStart)
    (hlt : S.receiveIndex < 256) (v : Byte) : (S.storeReceived v).Inv :=
  { h with
    index_le := hlt
    awaiting_index := fun hawait => absurd hawait hst
    rxb_blank := fun i hi => by
      have hi : S.receiveIndex + 1 ≤ i := hi
      rw [storeReceived_read_other h.rxb_wf v i (by omega)]
      exact h.rxb_blank i (by omega)
    rxb_wf := Memory.write_wf h.rxb_wf _ _ }

/-- Only AwaitingStart constrains the rest of the session. -/
theorem withState_inv {S : Session} (h : S.Inv) {st : RxState} (hst : st ≠ .awaitingStart) :
    { S with state := st }.Inv :=
  { h with awaiting_index := fun hawait => absurd hawait hst }

theorem afterMicro_inv {S : Session} {b : Byte} {i : Instr} (h : S.Inv) (hsel : selectedBy S b i) :
    (S.afterMicro i).Inv := by
  cases i with
  | rxStart | rxFlagShort | rxOverrun | rxUnescOverrun => exact restartReceiving_inv h.peersAgree
  | rxEsc => exact withState_inv h (by simp)
  | rxData x =>
    obtain ⟨-, hst, -, -, hlt⟩ := hsel
    exact storeReceived_inv h (by simp [hst]) hlt x
  | rxUnesc x =>
    obtain ⟨-, hst, hlt⟩ := hsel
    exact withState_inv (storeReceived_inv h (by simp [hst]) hlt _) (by simp)
  | _ => exact h

/-- Acceptance writes the peer, 0x13 and, before them, `expected_crc` (43_dispatcher.md R163, R165). -/
theorem accept_peersAgree {S : Session} (hp : S.passesFilter = true) : S.extractFrame.accept.PeersAgree :=
  ⟨fun _ hc => Option.some.inj hc ▸ ((passesFilter_iff S).mp hp).2, rfl, fun _ => rfl⟩

theorem dispatchFrame_peersAgree {S : Session} {s t : State} (hS : s.session = some S) (h : S.PeersAgree)
    (hd : dispatchFrame S s = .next t) : ∃ T, t.session = some T ∧ T.PeersAgree := by
  rcases dispatchFrame_effect hd with rfl | ⟨-, -, rfl⟩ | ⟨hp, -, a, -, txb, es, bs, rfl, -⟩
  · exact ⟨S, hS, h⟩
  · exact ⟨S.extractFrame, rfl, h.control_value, h.peer_with_control, fun _ => rfl⟩
  · exact ⟨_, rfl, { accept_peersAgree hp with }⟩

theorem transmitFrame_inv {payload : List Byte} {S : Session} {s t : State} (hS : s.session = some S)
    (h : S.Inv) (ht : transmitFrame payload S s = .next t) : ∃ T, t.session = some T ∧ T.Inv := by
  rcases transmitFrame_next ht with ⟨_, rfl⟩ | ⟨hlen, peer, _, rfl⟩
  · exact ⟨S, hS, h⟩
  · have hwithin : ∀ k, 256 ≤ k → (buildBody S.txb S.ownAddress peer payload).read k = 0x00 := by
      intro k hk
      rw [read_buildBody_beyond h.txb_wf _ _ _ k (by omega)]
      exact h.txb_within k hk
    exact ⟨_, State.emitAll_session _ _,
      { h with txb_within := hwithin, txb_wf := buildBody_wf h.txb_wf _ _ _ }⟩

/-! ## Every step -/

/-- Only operations of the command format come over the command port (30_encoding.md R90). -/
theorem encode_of_decodeCommand {c : Command} {i : Instr} (h : decodeCommand c = .ok i) :
    ∃ d, encode i = .cmd d := by
  unfold decodeCommand at h
  split_ifs at h <;> repeat' split at h
  all_goals cases h <;> exact ⟨_, rfl⟩

theorem State.Inv.of_session {s t : State} (h : s.Inv) (ht : t.session = s.session) : t.Inv :=
  fun T hT => h T (ht ▸ hT)

theorem State.Inv.intro {t : State} (h : ∃ T, t.session = some T ∧ T.Inv) : t.Inv := by
  obtain ⟨T, hT, hInv⟩ := h
  exact fun T' hT' => Option.some.inj (hT.symm.trans hT') ▸ hInv

/-- DISPATCH and a micro-operation alone are no commands: the first would leave PLB as it wrote it. -/
theorem exec_command_inv {i : Instr} {d : Command} {s t : State} (hi : encode i = .cmd d) (hs : s.Inv)
    (h : exec i s = .next t) : t.Inv := by
  cases i with
  | init own crcEn =>
    injection h with h
    exact State.Inv.intro ⟨_, h ▸ rfl, initialSession_inv own crcEn⟩
  | rxbyte b =>
    obtain ⟨S, hS, -⟩ := withSession_next h
    obtain ⟨b', j, -, hsel, ⟨-, rfl⟩ | ⟨-, u, hu, rfl⟩⟩ := exec_receive_next hS (.inr ⟨b, rfl⟩) h
    · exact State.Inv.intro ⟨_, rfl, afterMicro_inv (hs S hS) hsel⟩
    · obtain ⟨U, hU, hagree⟩ := dispatchFrame_peersAgree hS (hs S hS).peersAgree hu
      refine State.Inv.intro ⟨restartReceiving U, ?_, restartReceiving_inv hagree⟩
      rw [State.mapSession_session, hU]
      rfl
  | txframe payload =>
    obtain ⟨S, hS, h⟩ := withSession_next h
    exact State.Inv.intro (transmitFrame_inv hS (hs S hS) h)
  | txraw payload =>
    obtain ⟨S, -, h⟩ := withSession_next h
    split at h <;> injection h with h
    · exact hs.of_session (h ▸ rfl)
    · exact hs.of_session (h ▸ State.emitAll_session _ _)
  | crc16 bytes =>
    injection h with h
    exact hs.of_session (h ▸ rfl)
  | encbyte b =>
    injection h with h
    exact hs.of_session (h ▸ State.emitAll_session _ _)
  | _ => cases hi

/-- Settles O41: an idle step keeps the state, and any other runs one of the six commands. -/
theorem everyStepKeepsInvariant : Obligations.EveryStepKeepsInvariant := by
  intro s t hs h
  rcases step_next h with ⟨-, rfl⟩ | ⟨c, rest, i, -, hdec, hexec⟩
  · exact hs
  · obtain ⟨d, hd⟩ := encode_of_decodeCommand hdec
    exact exec_command_inv (s := { s with hostCommands := rest }) hd hs hexec

end Sys2Proof.Machine
end

section
/-! What no operation but INIT does to the session: the configuration, the state graph, the peer (10_state.md R38,
42_rx_assembler.md R156, 43_dispatcher.md R165). -/

namespace Sys2Proof.Machine

/-- With a session, an operation other than INIT has an `Effect`, or it is CRC16, which answers. -/
theorem exec_effect {i : Instr} {s t : State} {S : Session} (hinit : ∀ own en, i ≠ .init own en)
    (hS : s.session = some S) (h : exec i s = .next t) : Effect S s t ∨ ∃ v, t = s.answer v := by
  obtain ⟨own, en, rfl, -⟩ | ⟨bytes, -, ht⟩ | ⟨b, -, ht⟩ | ⟨S', hS', heffect⟩ := exec_next h
  · exact absurd rfl (hinit own en)
  · exact .inr ⟨_, ht⟩
  · exact .inl (.emitted _ ht)
  · exact .inl (Option.some.inj (hS'.symm.trans hS) ▸ heffect)

/-! ## The configuration -/

theorem transmitFrame_session {payload : List Byte} {S : Session} {s t : State} (hS : s.session = some S)
    (h : transmitFrame payload S s = .next t) : ∃ txb, t.session = some { S with txb := txb } := by
  obtain ⟨txb, es, bs, rfl, -⟩ := transmitFrame_sends hS h
  exact ⟨txb, rfl⟩

/-- No effect on a session touches its configuration. -/
theorem Effect.config {S : Session} {s t : State} (hS : s.session = some S) (h : Effect S s t) :
    ∃ T, t.session = some T ∧ T.ownAddress = S.ownAddress ∧ T.crcCheckEnable = S.crcCheckEnable := by
  cases h with
  | nothing h => exact ⟨S, h ▸ hS, rfl, rfl⟩
  | assembled T hT h =>
    refine ⟨T, h ▸ rfl, ?_, ?_⟩
    · rw [hT.1]
    · rw [hT.1]
  | dispatched h =>
    obtain ⟨T, hT, -, -, -, hown, hen, -, -⟩ := dispatchFrame_session hS h
    exact ⟨T, hT, hown, hen⟩
  | closed u h ht =>
    obtain ⟨U, hU, -, -, -, hown, hen, -, -⟩ := dispatchFrame_session hS h
    refine ⟨restartReceiving U, ?_, hown, hen⟩
    rw [ht, State.mapSession_session, hU]
    rfl
  | transmitted payload h =>
    obtain ⟨txb, hT⟩ := transmitFrame_session hS h
    exact ⟨_, hT, rfl, rfl⟩
  | rejected n h => exact ⟨S, h ▸ hS, rfl, rfl⟩
  | emitted bs h => exact ⟨S, by rw [h, State.emitAll_session, hS], rfl, rfl⟩

/-- Settles O42: an `Effect` keeps the configuration, and CRC16 the whole session. -/
theorem onlyInitWritesConfiguration : Obligations.OnlyInitWritesConfiguration := by
  intro i s t S T hinit h hS hT
  rcases exec_effect hinit hS h with heffect | ⟨v, rfl⟩
  · obtain ⟨T', hT', hconfig⟩ := heffect.config hS
    obtain rfl : T' = T := Option.some.inj (hT'.symm.trans hT)
    exact hconfig
  · obtain rfl : S = T := Option.some.inj (hS.symm.trans hT)
    exact ⟨rfl, rfl⟩

/-! ## The state graph -/

/-- The edges of R156 (a), each with the micro-operation and, where it is fixed, the octet that takes it. -/
theorem afterMicro_edge {S : Session} {b : Byte} {j : Instr} (hsel : selectedBy S b j)
    (hd : j ≠ .rxFlagDispatch) :
    ((S.afterMicro j).state = S.state ∧ S.state ≠ .processingEscape) ∨
    (S.state = .awaitingStart ∧ (S.afterMicro j).state = .receivingData ∧ j = .rxStart ∧ b = 0x7E) ∨
    (S.state = .receivingData ∧ (S.afterMicro j).state = .processingEscape ∧ j = .rxEsc ∧ b = 0x7D) ∨
    (S.state = .processingEscape ∧ (S.afterMicro j).state = .receivingData ∧
      (j = .rxUnesc b ∨ j = .rxUnescOverrun b)) := by
  cases j with
  | rxStart => exact .inr (.inl ⟨hsel.1, rfl, rfl, hsel.2⟩)
  | rxEsc => exact .inr (.inr (.inl ⟨hsel.1, rfl, rfl, hsel.2⟩))
  | rxUnesc x =>
    obtain ⟨rfl, hst, -⟩ := hsel
    exact .inr (.inr (.inr ⟨hst, rfl, .inl rfl⟩))
  | rxUnescOverrun x =>
    obtain ⟨rfl, hst, -⟩ := hsel
    exact .inr (.inr (.inr ⟨hst, rfl, .inr rfl⟩))
  | rxFlagDispatch => exact absurd rfl hd
  | rxIdle x =>
    obtain ⟨-, hst, -⟩ := hsel
    exact .inl ⟨rfl, by simp [hst]⟩
  | rxFlagIdle =>
    obtain ⟨hst, -⟩ := hsel
    exact .inl ⟨rfl, by simp [hst]⟩
  | rxFlagShort =>
    obtain ⟨hst, -⟩ := hsel
    exact .inl ⟨hst.symm, by simp [hst]⟩
  | rxData x =>
    obtain ⟨-, hst, -⟩ := hsel
    exact .inl ⟨rfl, by simp [hst]⟩
  | rxOverrun x =>
    obtain ⟨-, hst, -⟩ := hsel
    exact .inl ⟨hst.symm, by simp [hst]⟩
  | dispatch | init | rxbyte | txframe | txraw | crc16 | encbyte => exact hsel.elim

/-- An operation that is neither INIT nor a reception keeps `state`. -/
theorem exec_keeps_state {i : Instr} {s t : State} {S T : Session} (hi : isReceive i = false)
    (hb : ∀ b, i ≠ .rxbyte b) (hinit : ∀ own en, i ≠ .init own en) (h : exec i s = .next t)
    (hS : s.session = some S) (hT : t.session = some T) : T.state = S.state := by
  suffices ∃ U, t.session = some U ∧ U.state = S.state by
    obtain ⟨U, hU, hst⟩ := this
    rwa [← Option.some.inj (hU.symm.trans hT)]
  cases i with
  | dispatch source dest control =>
    obtain ⟨U, hU, -, -, hst, -⟩ := dispatchFrame_session hS (exec_dispatch_next hS h)
    exact ⟨U, hU, hst⟩
  | init own en => exact absurd rfl (hinit own en)
  | rxbyte b => exact absurd rfl (hb b)
  | txframe payload =>
    obtain ⟨txb, hU⟩ := transmitFrame_session hS ((withSession_some hS).symm.trans h)
    exact ⟨_, hU, rfl⟩
  | txraw payload =>
    replace h := (withSession_some hS).symm.trans h
    split at h <;> injection h with h
    · exact ⟨S, h ▸ hS, rfl⟩
    · exact ⟨S, h ▸ (State.emitAll_session _ _).trans hS, rfl⟩
  | crc16 bytes =>
    injection h with h
    exact ⟨S, h ▸ hS, rfl⟩
  | encbyte b =>
    injection h with h
    exact ⟨S, h ▸ (State.emitAll_session _ _).trans hS, rfl⟩
  | _ => cases hi

/-- Settles O43: a reception takes one of the edges of `afterMicro_edge`, or closes a frame in ReceivingData, and
nothing else leaves its state. -/
theorem stateGraphHasNoOtherEdge : Obligations.StateGraphHasNoOtherEdge := by
  intro i s t S T hinit h hS hT
  by_cases hrx : isReceive i = true ∨ ∃ b, i = .rxbyte b
  · obtain ⟨b, j, hij, hsel, ⟨hd, rfl⟩ | ⟨rfl, u, hu, rfl⟩⟩ := exec_receive_next hS hrx h
    · obtain rfl : S.afterMicro j = T := Option.some.inj hT
      obtain ⟨hkeep, hne⟩ | ⟨hst, hto, rfl, rfl⟩ | ⟨hst, hto, rfl, rfl⟩ | ⟨hst, hto, hj⟩ :=
        afterMicro_edge hsel hd
      · exact ⟨fun h => hkeep ▸ h, .inl hkeep, fun h => absurd h hne⟩
      · refine ⟨fun h => absurd hst h, .inr (.inl ⟨hst, hto, hij⟩), fun _ _ => hto⟩
      · refine ⟨fun _ => by simp [hto], .inr (.inr (.inl ⟨hst, hto, hij⟩)), fun h => ?_⟩
        rw [hst] at h
        cases h
      · refine ⟨fun _ => by simp [hto], .inr (.inr (.inr ⟨hst, hto, b, ?_⟩)), fun _ _ => hto⟩
        rcases hj with rfl | rfl
        · exact hij.imp_right .inr
        · exact .inr hij
    · obtain ⟨hst, -, -⟩ := hsel
      obtain ⟨U, -, rfl⟩ := Option.map_eq_some_iff.mp hT
      exact ⟨fun _ => by simp [restartReceiving], .inl hst.symm, fun _ _ => rfl⟩
  · obtain ⟨hi, hb⟩ := not_or.mp hrx
    have hkeep := exec_keeps_state (by simpa using hi) (not_exists.mp hb) hinit h hS hT
    exact ⟨fun h => hkeep ▸ h, .inl hkeep, fun _ h => absurd h hrx⟩

/-! ## The peer -/

/-- The two alternatives of R165: nothing of the peer changed and nobody was called, or the frame in RXB was
accepted. -/
def peerKeptOrAccepted (S : Session) (s t : State) (T : Session) : Prop :=
  (T.peerSourceAddress = S.peerSourceAddress ∧ T.controlByte = S.controlByte ∧ t.calls = s.calls) ∨
  (T.peerSourceAddress = some (S.rxb.read 0) ∧ T.controlByte = some 0x13 ∧
    S.rxb.read 1 = S.ownAddress ∧ S.rxb.read 2 = 0x13 ∧
    (S.crcCheckEnable = true →
      crc16 (S.rxb.slice 0 (S.receiveIndex - 2)) =
        S.rxb.read (S.receiveIndex - 2) ++ S.rxb.read (S.receiveIndex - 1)) ∧
    ∃ c, t.calls = s.calls ++ [c] ∧ c.n = S.receiveIndex - 5 ∧
      c.seen.receiveIndex = S.receiveIndex ∧ c.seen.rxb = S.rxb)

theorem dispatchFrame_peer {S : Session} {s t : State} (hS : s.session = some S)
    (h : dispatchFrame S s = .next t) : ∃ T, t.session = some T ∧ peerKeptOrAccepted S s t T := by
  rcases dispatchFrame_effect h with rfl | ⟨-, -, rfl⟩ | ⟨hp, hc, a, -, txb, es, bs, rfl, -⟩
  · exact ⟨S, hS, .inl ⟨rfl, rfl, rfl⟩⟩
  · exact ⟨S.extractFrame, rfl, .inl ⟨rfl, rfl, rfl⟩⟩
  · obtain ⟨hdest, hctrl⟩ := (passesFilter_iff S).mp hp
    refine ⟨_, rfl, .inr ⟨rfl, congrArg some hctrl, hdest, hctrl, fun hen => ?_,
      ⟨S.receiveIndex - 5, S.extractFrame.accept⟩, afterCall_calls s _ _ a, rfl, rfl, rfl⟩⟩
    exact ((checksumFails_eq_false_iff S).mp hc).resolve_left (by simp [hen])

theorem Effect.peer {S : Session} {s t : State} (hS : s.session = some S) (h : Effect S s t) :
    ∃ T, t.session = some T ∧ peerKeptOrAccepted S s t T := by
  cases h with
  | nothing h => exact ⟨S, h ▸ hS, .inl ⟨rfl, rfl, h ▸ rfl⟩⟩
  | assembled T hT h =>
    refine ⟨T, h ▸ rfl, .inl ⟨?_, ?_, h ▸ rfl⟩⟩
    · rw [hT.1]
    · rw [hT.1]
  | dispatched h => exact dispatchFrame_peer hS h
  | closed u h ht =>
    obtain ⟨U, hU, hpeer⟩ := dispatchFrame_peer hS h
    refine ⟨restartReceiving U, ?_, ht ▸ hpeer⟩
    rw [ht, State.mapSession_session, hU]
    rfl
  | transmitted payload h =>
    obtain ⟨txb, es, bs, rfl, -⟩ := transmitFrame_sends hS h
    exact ⟨_, rfl, .inl ⟨rfl, rfl, rfl⟩⟩
  | rejected n h => exact ⟨S, h ▸ hS, .inl ⟨rfl, rfl, h ▸ rfl⟩⟩
  | emitted bs h =>
    exact ⟨S, by rw [h, State.emitAll_session, hS], .inl ⟨rfl, rfl, by rw [h, State.emitAll_calls]⟩⟩

/-- Settles O46: of the effects only DISPATCH of an accepted frame writes the peer, run alone or by the closing
FLAG. -/
theorem peerChangesOnlyAtAcceptance : Obligations.PeerChangesOnlyAtAcceptance := by
  intro i s t S T hinit h hS hT
  rcases exec_effect hinit hS h with heffect | ⟨v, rfl⟩
  · obtain ⟨T', hT', hpeer⟩ := heffect.peer hS
    obtain rfl : T' = T := Option.some.inj (hT'.symm.trans hT)
    exact hpeer
  · obtain rfl : S = T := Option.some.inj (hS.symm.trans hT)
    exact .inl ⟨rfl, rfl, rfl⟩

end Sys2Proof.Machine
end

section
/-! The outputs of any operation (44_tx_framer.md R181, 60_exceptions.md R210, 70_reset_and_hazards.md R234). -/

namespace Sys2Proof.Machine

/-- From `s` to `t` the four outputs only grow: by one event and one call at most, and by CrcError only under
verification, without a call and without an octet. -/
structure Grows (s t : State) : Prop where
  sink : ∃ bs, t.sink = s.sink ++ bs
  results : ∃ vs, t.results = s.results ++ vs
  events : ∃ es cs, t.events = s.events ++ es ∧ t.calls = s.calls ++ cs ∧ es.length ≤ 1 ∧ cs.length ≤ 1 ∧
    (.crcError ∈ es → cs = [] ∧ t.sink = s.sink ∧ ∃ S, s.session = some S ∧ S.crcCheckEnable = true)

/-- An operation that raises nothing and calls nobody. -/
theorem Grows.quiet {s t : State} (bs : List Byte) (vs : List Half) (hsink : t.sink = s.sink ++ bs)
    (hresults : t.results = s.results ++ vs) (hevents : t.events = s.events) (hcalls : t.calls = s.calls) :
    Grows s t :=
  ⟨⟨bs, hsink⟩, ⟨vs, hresults⟩, [], [], by simp [hevents], by simp [hcalls], by simp, by simp, by simp⟩

theorem Grows.of_same_outputs {s t : State} (hsink : t.sink = s.sink) (hresults : t.results = s.results)
    (hevents : t.events = s.events) (hcalls : t.calls = s.calls) : Grows s t :=
  Grows.quiet [] [] (by simp [hsink]) (by simp [hresults]) hevents hcalls

theorem Grows.emitAll (s : State) (bs : List Byte) : Grows s (s.emitAll bs) :=
  Grows.quiet bs [] (State.emitAll_sink s bs) (by simp) (State.emitAll_events s bs) (State.emitAll_calls s bs)

/-- A transmission emits and raises LenError at most, after `cs` calls, at most one (R180, R183). -/
theorem Grows.of_sends {S : Session} {s u t : State} {len : Nat} (h : sends S u t len) (cs : List ProcCall)
    (hcs : cs.length ≤ 1) (hsink : u.sink = s.sink) (hresults : u.results = s.results)
    (hevents : u.events = s.events) (hcalls : u.calls = s.calls ++ cs) : Grows s t := by
  obtain ⟨txb, es, bs, rfl, hes, -⟩ := h
  refine ⟨⟨bs, by simp [hsink]⟩, ⟨[], by simp [hresults]⟩, es, cs, by simp [hevents], hcalls, ?_, hcs, ?_⟩
  · rcases hes with rfl | ⟨n, rfl⟩ <;> simp
  · rcases hes with rfl | ⟨n, rfl⟩ <;> simp

theorem dispatchFrame_grows {S : Session} {s t : State} (hS : s.session = some S)
    (h : dispatchFrame S s = .next t) : Grows s t := by
  rcases dispatchFrame_effect h with rfl | ⟨-, hc, rfl⟩ | ⟨-, -, a, -, hsends⟩
  · exact Grows.of_same_outputs rfl rfl rfl rfl
  · have hen := ((checksumFails_iff S).mp hc).1
    exact ⟨⟨[], by simp⟩, ⟨[], by simp⟩, [.crcError], [], rfl, by simp, by simp, by simp,
      fun _ => ⟨rfl, rfl, S, hS, hen⟩⟩
  · exact Grows.of_sends hsends [_] (by simp) (afterCall_sink _ _ _ _) (afterCall_results _ _ _ _)
      (afterCall_events _ _ _ _) (afterCall_calls _ _ _ _)

theorem Effect.grows {S : Session} {s t : State} (hS : s.session = some S) (h : Effect S s t) : Grows s t := by
  cases h with
  | nothing h => exact h ▸ Grows.of_same_outputs rfl rfl rfl rfl
  | assembled T hT h => exact h ▸ Grows.of_same_outputs rfl rfl rfl rfl
  | dispatched h => exact dispatchFrame_grows hS h
  | closed u h ht =>
    obtain ⟨hsink, hresults, hevents⟩ := dispatchFrame_grows hS h
    exact ht ▸ ⟨hsink, hresults, hevents⟩
  | transmitted payload h =>
    exact Grows.of_sends (transmitFrame_sends hS h) [] (by simp) rfl rfl rfl (by simp)
  | rejected n h =>
    exact Grows.of_sends (h ▸ sends_raise_lenError hS n 0) [] (by simp) rfl rfl rfl (by simp)
  | emitted bs h => exact h ▸ Grows.emitAll s bs

theorem exec_grows {i : Instr} {s t : State} (h : exec i s = .next t) : Grows s t := by
  obtain ⟨own, en, -, rfl⟩ | ⟨bytes, -, rfl⟩ | ⟨b, -, rfl⟩ | ⟨S, hS, heffect⟩ := exec_next h
  · exact Grows.of_same_outputs rfl rfl rfl rfl
  · exact Grows.quiet [] [crc16 bytes] (by simp) rfl rfl rfl
  · exact Grows.emitAll s _
  · exact heffect.grows hS

/-- Settles O44: every operation makes the outputs grow, and `Grows` says more of CrcError than is asked. -/
theorem outputsOnlyGrow : Obligations.OutputsOnlyGrow := by
  intro i s t h
  obtain ⟨hsink, hresults, es, cs, hevents, hcalls, hes, hcs, hcrc⟩ := exec_grows h
  exact ⟨hsink, hresults, es, cs, hevents, hcalls, hes, hcs, fun hmem => ⟨(hcrc hmem).1, (hcrc hmem).2.1⟩⟩

/-- Settles O45: a new CrcError would mean that verification is on. -/
theorem noCrcErrorWhenDisabled : Obligations.NoCrcErrorWhenDisabled := by
  intro i s t S h hS hoff
  obtain ⟨-, -, es, cs, hevents, -, -, -, hcrc⟩ := exec_grows h
  refine ⟨es, hevents, fun hmem => ?_⟩
  obtain ⟨-, -, S', hS', hon⟩ := hcrc hmem
  obtain rfl : S' = S := Option.some.inj (hS'.symm.trans hS)
  exact absurd hon (by simp [hoff])

end Sys2Proof.Machine
end

section
/-! Two runs that differ in what `control_byte` and `expected_crc` hold (10_state.md R23, R28). -/

namespace Sys2Proof.Machine

/-- `S` with other contents of the two fields no rule reads before writing them. -/
def Session.overwrite (S : Session) (c : Option Byte) (e : Option Half) : Session :=
  { S with controlByte := c, expectedCrc := e }

/-- The two states are equal but for what the session's two unread fields hold. -/
def sameButUnread (t' t : State) : Prop :=
  t'.mapSession Session.forgetUnread = t.mapSession Session.forgetUnread

theorem sameButUnread.map {t' t : State} (h : sameButUnread t' t) (f : State → State)
    (hf : ∀ u : State, (f u).mapSession Session.forgetUnread = f (u.mapSession Session.forgetUnread)) :
    sameButUnread (f t') (f t) :=
  (hf t').trans ((congrArg f h).trans (hf t).symm)

theorem sameButUnread.emitAll {t' t : State} (h : sameButUnread t' t) (bs : List Byte) :
    sameButUnread (t'.emitAll bs) (t.emitAll bs) := by
  refine h.map (State.emitAll · bs) fun u => ?_
  rw [State.emitAll_eq, State.emitAll_eq]
  rfl

theorem sameButUnread_putSession (s : State) {T' T : Session} (h : T'.forgetUnread = T.forgetUnread) :
    sameButUnread (s.putSession T') (s.putSession T) :=
  congrArg s.putSession h

/-- The call's record does not show what the two fields held: acceptance has overwritten both (R163, R165). -/
theorem afterCall_putSession (s : State) (S : Session) (n : Nat) (V : Session) (a : ProcAnswer) :
    afterCall (s.putSession S) n V a = afterCall s n V a := by
  have hturn : afterTurn (s.putSession S) = (afterTurn s).putSession S := by
    unfold afterTurn
    rw [State.putSession_procScript]
    split <;> rfl
  rw [afterCall, hturn]
  rfl

section
variable {s t : State} {S : Session} {i : Instr} (hS : s.session = some S) (c : Option Byte) (e : Option Half)

theorem selectedBy_overwrite (S : Session) (b : Byte) (i : Instr) :
    selectedBy (S.overwrite c e) b i = selectedBy S b i := by
  cases i <;> rfl

theorem afterMicro_overwrite (S : Session) (i : Instr) :
    ((S.overwrite c e).afterMicro i).forgetUnread = (S.afterMicro i).forgetUnread := by
  cases i <;> rfl

include hS

theorem sameButUnread_overwrite : sameButUnread (s.putSession (S.overwrite c e)) s := by
  have h : sameButUnread (s.putSession (S.overwrite c e)) (s.putSession S) :=
    sameButUnread_putSession s rfl
  rwa [State.putSession_self hS] at h

theorem dispatchFrame_unread (h : dispatchFrame S s = .next t) :
    ∃ t', dispatchFrame (S.overwrite c e) (s.putSession (S.overwrite c e)) = .next t' ∧
      sameButUnread t' t := by
  obtain ⟨h5, h256, ⟨hp, rfl⟩ | ⟨hp, hc, rfl⟩ | ⟨hp, hc, a, ha, h⟩⟩ := dispatchFrame_next h
  · exact ⟨_, dispatchFrame_filtered _ h5 h256 hp, sameButUnread_overwrite hS c e⟩
  · refine ⟨_, dispatchFrame_corrupt _ h5 h256 hp hc, ?_⟩
    exact (sameButUnread_putSession s rfl).map (State.raise · .crcError) fun _ => rfl
  · have haccepted := dispatchFrame_accepted (S := S.overwrite c e) (s := s.putSession (S.overwrite c e))
      h5 h256 hp hc ha
    rw [afterCall_putSession] at haccepted
    exact ⟨t, haccepted.trans h, rfl⟩

theorem transmitFrame_unread {payload : List Byte} (h : transmitFrame payload S s = .next t) :
    ∃ t', transmitFrame payload (S.overwrite c e) (s.putSession (S.overwrite c e)) = .next t' ∧
      sameButUnread t' t := by
  rcases transmitFrame_next h with ⟨hlong, rfl⟩ | ⟨hlen, peer, hp, rfl⟩
  · refine ⟨_, transmitFrame_overlong _ _ hlong, ?_⟩
    exact (sameButUnread_overwrite hS c e).map (State.raise · _) fun _ => rfl
  · refine ⟨_, transmitFrame_of_peer hp hlen, ?_⟩
    refine sameButUnread.emitAll (sameButUnread_putSession s ?_) _
    rfl

/-- Selection reads neither field, and `afterMicro` and the reset carry both along. -/
theorem exec_receive_unread (hi : isReceive i = true) (h : exec i s = .next t) :
    ∃ t', exec i (s.putSession (S.overwrite c e)) = .next t' ∧ sameButUnread t' t := by
  obtain ⟨b, j, hij, hsel, hcase⟩ := exec_receive_next hS (.inl hi) h
  obtain rfl : i = j := hij.resolve_right (by rintro rfl; cases hi)
  rw [← selectedBy_overwrite c e] at hsel
  rcases hcase with ⟨hd, rfl⟩ | ⟨rfl, u, hu, rfl⟩
  · exact ⟨_, exec_selected rfl hsel hd, sameButUnread_putSession s (afterMicro_overwrite c e S i)⟩
  · obtain ⟨u', hu', hsame⟩ := dispatchFrame_unread hS c e hu
    refine ⟨u'.mapSession restartReceiving, ?_, hsame.map (·.mapSession restartReceiving) fun u => ?_⟩
    · rw [exec_rxFlagDispatch_selected rfl hsel.1 hsel.2.2, hu']
      rfl
    · simp only [State.mapSession, Option.map_map]
      rfl

end

/-- Settles O47, by cases on the operation: receptions, DISPATCH and TXFRAME by their lemmas; INIT, CRC16, ENCBYTE
and TXRAW read nothing of the session. -/
theorem unreadFieldsDoNotInfluence : Obligations.UnreadFieldsDoNotInfluence := by
  intro i s t S c e hS h
  suffices ∃ t', exec i (s.putSession (S.overwrite c e)) = .next t' ∧ sameButUnread t' t from this
  have hsame := sameButUnread_overwrite hS c e
  cases i with
  | dispatch source dest control =>
    replace h := (withSession_some hS).symm.trans h
    split at h
    · obtain ⟨t', ht', hsame'⟩ := dispatchFrame_unread hS c e h
      exact ⟨t', (if_pos ‹_›).trans ht', hsame'⟩
    · cases h
  | init own en =>
    injection h with h
    exact ⟨_, rfl, h ▸ sameButUnread_putSession s rfl⟩
  | rxbyte b =>
    rw [exec_rxbyte hS] at h
    obtain ⟨t', ht', hsame'⟩ := exec_receive_unread hS c e (isReceive_microOf S b) h
    exact ⟨t', (exec_rxbyte (S := S.overwrite c e) rfl b).trans ht', hsame'⟩
  | txframe payload =>
    exact transmitFrame_unread hS c e ((withSession_some hS).symm.trans h)
  | txraw payload =>
    replace h := (withSession_some hS).symm.trans h
    split at h <;> injection h with h
    · exact ⟨_, if_pos ‹_›, h ▸ hsame.map (State.raise · _) fun _ => rfl⟩
    · exact ⟨_, if_neg ‹_›, h ▸ hsame.emitAll _⟩
  | crc16 bytes =>
    injection h with h
    exact ⟨_, rfl, h ▸ hsame.map (State.answer · _) fun _ => rfl⟩
  | encbyte b =>
    injection h with h
    exact ⟨_, rfl, h ▸ hsame.emitAll _⟩
  | _ => exact exec_receive_unread hS c e rfl h

end Sys2Proof.Machine
end

section
/-! Runs of the Receive Assembler: a FLAG and an escaped body, one RXBYTE per octet (41_codec.md R133,
42_rx_assembler.md R141, 44_tx_framer.md R189). -/

namespace Sys2Proof.Machine

/-! ## One octet -/

/-- A step on a fed octet whose micro-operation does not dispatch. -/
theorem run_feed_micro {n : Nat} {s : State} {S : Session} {b : Byte} {i : Instr} {rest : List Byte}
    (hS : s.session = some S) (hmicro : S.microOf b = i) (hsel : selectedBy S b i)
    (hd : i ≠ .rxFlagDispatch) :
    Host.Core.run Sys2Proof.core (n + 1) (s.feed (b :: rest)) =
      Host.Core.run Sys2Proof.core n ((s.putSession (S.afterMicro i)).feed rest) := by
  have hfed : (s.feed rest).session = some S := hS
  refine run_next ((exec_rxbyte hfed b).trans ?_)
  rw [hmicro]
  exact exec_selected hfed hsel hd

/-- One octet of the body on the wire, one or two RXBYTEs, is one octet stored. -/
theorem run_feed_encodeByte {n : Nat} {s : State} {S : Session} (b : Byte) (rest : List Byte)
    (hS : s.session = some S) (hst : S.state = .receivingData) (hlt : S.receiveIndex < 256) :
    Host.Core.run Sys2Proof.core ((encodeByte b).length + n) (s.feed (encodeByte b ++ rest)) =
      Host.Core.run Sys2Proof.core n ((s.putSession (S.storeReceived b)).feed rest) := by
  by_cases h : b = 0x7E ∨ b = 0x7D
  · have hstored : { S.storeReceived b with state := .receivingData } = S.storeReceived b := by
      rw [← hst]
      rfl
    have hunmask : b ^^^ 0x20 ^^^ 0x20 = b := by rw [BitVec.xor_assoc, BitVec.xor_self, BitVec.xor_zero]
    rw [encodeByte_reserved h, Nat.add_comm]
    refine (run_feed_micro hS (i := .rxEsc) (by simp [Session.microOf, hst]) ⟨hst, rfl⟩ (by simp)).trans ?_
    refine (run_feed_micro (S := { S with state := .processingEscape }) rfl (i := .rxUnesc (b ^^^ 0x20))
      (by simp [Session.microOf, hlt]) ⟨rfl, rfl, hlt⟩ (by simp)).trans ?_
    rw [← hstored]
    conv_rhs => rw [← hunmask]
    rfl
  · obtain ⟨hflag, hesc⟩ := not_or.mp h
    rw [encodeByte_plain h, Nat.add_comm]
    have hmicro : S.microOf b = .rxData b := by
      simp only [Session.microOf, hst, hflag, hesc, hlt, if_false, if_true, false_and]
    exact run_feed_micro hS hmicro ⟨rfl, hst, hesc, hflag, hlt⟩ (by simp)

/-! ## A body -/

/-- The session after the octets of `body` are stored from `receive_index` on. -/
def Session.receiveBody (S : Session) (body : List Byte) : Session :=
  { S with
    rxb := S.rxb.fill S.receiveIndex body
    receiveIndex := S.receiveIndex + body.length }

theorem receiveBody_cons (S : Session) (b : Byte) (rest : List Byte) :
    S.receiveBody (b :: rest) = (S.storeReceived b).receiveBody rest := by
  simp only [Session.receiveBody, Session.storeReceived, Memory.fill, List.length_cons]
  rw [show S.receiveIndex + 1 + rest.length = S.receiveIndex + (rest.length + 1) by omega]

theorem run_feed_encodeBytes {n : Nat} {s : State} {S : Session} (body rest : List Byte)
    (hS : s.session = some S) (hst : S.state = .receivingData)
    (hlen : S.receiveIndex + body.length ≤ 256) :
    Host.Core.run Sys2Proof.core ((encodeBytes body).length + n) (s.feed (encodeBytes body ++ rest)) =
      Host.Core.run Sys2Proof.core n ((s.putSession (S.receiveBody body)).feed rest) := by
  induction body generalizing s S with
  | nil =>
    rw [show S.receiveBody [] = S from rfl, State.putSession_self hS]
    simp [encodeBytes]
  | cons b body ih =>
    rw [List.length_cons] at hlen
    rw [encodeBytes, List.append_assoc, List.length_append, Nat.add_assoc,
      run_feed_encodeByte b _ hS hst (by omega), receiveBody_cons]
    exact ih (s := s.putSession (S.storeReceived b)) rfl hst
      (show S.receiveIndex + 1 + body.length ≤ 256 by omega)

/-! ## The opening FLAG -/

/-- The session after a FLAG at a frame boundary: RX.START while idle, RX.FLAG.IDLE between frames. -/
def Session.opened (S : Session) : Session :=
  if S.state = .awaitingStart then restartReceiving S else S

theorem opened_of_awaiting {S : Session} (h : S.state = .awaitingStart) : S.opened = restartReceiving S :=
  if_pos h

theorem opened_of_receiving {S : Session} (h : S.state = .receivingData) : S.opened = S :=
  if_neg (by simp [h])

section
variable {S : Session} (h : S.atBoundary)
include h

theorem opened_state : S.opened.state = .receivingData := by
  rcases h with h | ⟨h, -⟩
  · rw [opened_of_awaiting h]
    rfl
  · rw [opened_of_receiving h, h]

theorem opened_receiveIndex : S.opened.receiveIndex = 0 := by
  rcases h with h | ⟨h, h0⟩
  · rw [opened_of_awaiting h]
    rfl
  · rw [opened_of_receiving h, h0]

theorem run_feed_flag {n : Nat} {s : State} {rest : List Byte} (hS : s.session = some S) :
    Host.Core.run Sys2Proof.core (n + 1) (s.feed (0x7E :: rest)) =
      Host.Core.run Sys2Proof.core n ((s.putSession S.opened).feed rest) := by
  rcases h with h | ⟨h, h0⟩
  · rw [opened_of_awaiting h]
    exact run_feed_micro hS (i := .rxStart) (by simp [Session.microOf, h]) ⟨h, rfl⟩ (by simp)
  · rw [opened_of_receiving h]
    exact run_feed_micro hS (i := .rxFlagIdle) (by simp [Session.microOf, h, h0]) ⟨h, rfl, h0⟩ (by simp)

/-- A FLAG and a whole escaped body: the body is assembled from the opened session. -/
theorem run_feed_body {n : Nat} {s : State} (hS : s.session = some S) (body rest : List Byte)
    (hlen : body.length ≤ 256) :
    Host.Core.run Sys2Proof.core (1 + (encodeBytes body).length + n)
        (s.feed (0x7E :: (encodeBytes body ++ rest))) =
      Host.Core.run Sys2Proof.core n ((s.putSession (S.opened.receiveBody body)).feed rest) := by
  rw [Nat.add_assoc, Nat.add_comm, run_feed_flag h hS]
  exact run_feed_encodeBytes (s := s.putSession S.opened) body rest rfl (opened_state h)
    (by rw [opened_receiveIndex h]; omega)

theorem opened_receiveBody_index (body : List Byte) :
    (S.opened.receiveBody body).receiveIndex = body.length := by
  rw [Session.receiveBody, opened_receiveIndex h, Nat.zero_add]

theorem opened_receiveBody_slice (hwf : S.opened.rxb.wf = true) (body : List Byte) :
    (S.opened.receiveBody body).rxb.slice 0 body.length = body := by
  rw [Session.receiveBody, opened_receiveIndex h]
  exact Memory.slice_fill hwf 0 body

end

theorem opened_rxb_wf {S : Session} (hwf : S.rxb.wf = true) : S.opened.rxb.wf = true := by
  unfold Session.opened
  split
  · rfl
  · exact hwf

/-- Settles O48: the run ends in the session with the body received. -/
theorem escapedBodyIsAssembled : Obligations.EscapedBodyIsAssembled := by
  intro s S body hS hst hlen
  have hb : S.atBoundary := .inl hst
  have hwf : S.opened.rxb.wf = true := by rw [opened_of_awaiting hst]; rfl
  refine ⟨S.opened.receiveBody body, ?_, opened_state hb, opened_receiveBody_index hb body,
    opened_receiveBody_slice hb hwf body⟩
  have hrun := run_feed_body (n := 0) hb hS body [] hlen
  rw [List.append_nil] at hrun
  exact hrun

/-- Settles O49: what TXFRAME emits is a FLAG, the escaped body read back from TXB, and a FLAG. -/
theorem transmittedFrameIsReceived : Obligations.TransmittedFrameIsReceived := by
  intro s₁ s₂ S₁ S₂ peer payload hS₁ hpeer hwf₁ hlen hS₂ hb hwf₂
  have hexec := exec_txframe_of_peer hS₁ hpeer hlen hwf₁
  have hbody := slice_buildBody_eq_addressedBody hwf₁ S₁.ownAddress peer payload
  generalize addressedBody S₁.ownAddress peer payload (crc16 ([S₁.ownAddress, peer, 0x13] ++ payload)) = body
    at hexec hbody
  have hlength : body.length = 5 + payload.length := by rw [← hbody, Memory.length_slice]
  refine ⟨_, _, 0x7E :: encodeBytes body, S₂.opened.receiveBody body, hexec, State.emitAll_session _ _, ?_, ?_,
    opened_state hb, ?_, ?_⟩
  · rw [State.emitAll_sink, List.append_assoc]
    rfl
  · have hrun := run_feed_body (n := 0) hb hS₂ body [] (by omega)
    rw [List.append_nil, Nat.add_zero, Nat.add_comm] at hrun
    exact hrun
  · rw [opened_receiveBody_index hb, hlength]
  · rw [hbody, ← hlength]
    exact opened_receiveBody_slice hb (opened_rxb_wf hwf₂) body

end Sys2Proof.Machine
end

section
/-! Whole frames through a receiver: assembled, dispatched by the closing FLAG, answered or dropped
(43_dispatcher.md R162 to R168, 42_rx_assembler.md R146). -/

namespace Sys2Proof.Machine

/-! ## A frame body in RXB -/

theorem Memory.slice_add (m : Memory) (base n k : Nat) :
    m.slice base (n + k) = m.slice base n ++ m.slice (base + n) k := by
  induction n generalizing base with
  | zero => simp [Memory.slice]
  | succ n ih =>
    rw [show n + 1 + k = n + k + 1 by omega, Memory.slice, ih, Memory.slice, List.cons_append,
      show base + 1 + n = base + (n + 1) by omega]

theorem joinCrc_extract (crc : Half) : joinCrc (crc.extractLsb' 8 8) (crc.extractLsb' 0 8) = crc :=
  BitVec.extractLsb'_append_extractLsb' (w := 8) (len := 8) (x := crc)

theorem length_addressedBody (source dest : Byte) (payload : List Byte) (crc : Half) :
    (addressedBody source dest payload crc).length = 5 + payload.length := by
  simp [addressedBody]
  omega

/-- RXB holds a whole addressed body, and `receive_index` is its length (30_encoding.md R81). -/
structure Session.HoldsFrame (S : Session) (source dest : Byte) (payload : List Byte) (crc : Half) : Prop where
  index : S.receiveIndex = 5 + payload.length
  body : S.rxb.slice 0 (5 + payload.length) = addressedBody source dest payload crc

section
variable {S : Session} {source dest : Byte} {payload : List Byte} {crc : Half}
  (h : S.HoldsFrame source dest payload crc)
include h

/-- The body at its fixed places: header, payload, checksum octets (20_memory.md R57). -/
theorem Session.HoldsFrame.parts :
    S.rxb.slice 0 3 = [source, dest, 0x13] ∧ S.rxb.slice 3 payload.length = payload ∧
      S.rxb.slice (3 + payload.length) 2 = [crc.extractLsb' 8 8, crc.extractLsb' 0 8] := by
  have hbody := h.body
  rw [show 5 + payload.length = 3 + payload.length + 2 by omega, Memory.slice_add, Memory.slice_add,
    addressedBody, Nat.zero_add, Nat.zero_add] at hbody
  obtain ⟨hfront, hcrc⟩ := List.append_inj hbody (by simp; omega)
  obtain ⟨hheader, hpayload⟩ := List.append_inj hfront (by simp)
  exact ⟨hheader, hpayload, hcrc⟩

theorem Session.HoldsFrame.header :
    S.rxb.read 0 = source ∧ S.rxb.read 1 = dest ∧ S.rxb.read 2 = 0x13 := by
  simpa [Memory.slice] using h.parts.1

theorem Session.HoldsFrame.checkedOctets :
    S.rxb.slice 0 (S.receiveIndex - 2) = [source, dest, 0x13] ++ payload := by
  rw [h.index, show 5 + payload.length - 2 = 3 + payload.length by omega, Memory.slice_add, Nat.zero_add,
    h.parts.1, h.parts.2.1]

theorem Session.HoldsFrame.framePayload : S.framePayload = payload := by
  rw [Session.framePayload, h.index, cfg_headerLen, cfg_minFrame, Nat.add_sub_cancel_left]
  exact h.parts.2.1

theorem Session.HoldsFrame.claimedCrc : S.claimedCrc = crc := by
  have hcrc : S.rxb.read (3 + payload.length) = crc.extractLsb' 8 8 ∧
      S.rxb.read (3 + payload.length + 1) = crc.extractLsb' 0 8 := by
    simpa [Memory.slice] using h.parts.2.2
  rw [Session.claimedCrc, h.index, show 5 + payload.length - 2 = 3 + payload.length by omega,
    show 5 + payload.length - 1 = 3 + payload.length + 1 by omega, hcrc.1, hcrc.2, joinCrc_extract]

theorem Session.HoldsFrame.passesFilter (hdest : dest = S.ownAddress) : S.passesFilter = true :=
  (passesFilter_iff S).mpr ⟨h.header.2.1.trans hdest, h.header.2.2⟩

theorem Session.HoldsFrame.checksumFails_iff : S.extractFrame.checksumFails = true ↔
    S.crcCheckEnable = true ∧ crc16 ([source, dest, 0x13] ++ payload) ≠ crc := by
  rw [Machine.checksumFails_iff, h.checkedOctets]
  exact and_congr_right fun _ => iff_of_eq (congrArg (_ ≠ ·) h.claimedCrc)

end

/-! ## The closing FLAG of an assembled frame -/

theorem opened_inv {S : Session} (h : S.Inv) : S.opened.Inv := by
  unfold Session.opened
  split
  · exact restartReceiving_inv h.peersAgree
  · exact h

section
variable (S : Session)
theorem opened_ownAddress : S.opened.ownAddress = S.ownAddress := by unfold Session.opened; split <;> rfl
theorem opened_crcCheckEnable : S.opened.crcCheckEnable = S.crcCheckEnable := by
  unfold Session.opened; split <;> rfl
theorem opened_peer : S.opened.peerSourceAddress = S.peerSourceAddress := by
  unfold Session.opened; split <;> rfl
theorem opened_control : S.opened.controlByte = S.controlByte := by unfold Session.opened; split <;> rfl
end

section
variable {s : State} {S : Session} (hb : S.atBoundary)
include hb

theorem opened_holdsFrame (hwf : S.opened.rxb.wf = true) (source dest : Byte) (payload : List Byte)
    (crc : Half) :
    (S.opened.receiveBody (addressedBody source dest payload crc)).HoldsFrame source dest payload crc where
  index := by rw [opened_receiveBody_index hb, length_addressedBody]
  body := by
    rw [← length_addressedBody source dest payload crc]
    exact opened_receiveBody_slice hb hwf _

/-- A whole frame of 6 to 256 body octets, fed to a receiver at a boundary, ends in DISPATCH and the reset. -/
theorem run_feed_wireFrame (hS : s.session = some S) (body : List Byte) (h6 : 6 ≤ body.length)
    (h256 : body.length ≤ 256) {t : State}
    (ht : dispatchFrame (S.opened.receiveBody body) ((s.putSession (S.opened.receiveBody body)).feed []) =
      .next t) :
    Host.Core.run Sys2Proof.core (wireFrame body).length (s.feed (wireFrame body)) =
      .next (t.mapSession restartReceiving) := by
  generalize hB : S.opened.receiveBody body = B at ht
  have hst : B.state = .receivingData := by
    rw [← hB]
    exact opened_state hb
  have hindex : B.receiveIndex = body.length := by rw [← hB, opened_receiveBody_index hb]
  have hmicro : B.microOf 0x7E = .rxFlagDispatch := by
    have h0 : B.receiveIndex ≠ 0 := by omega
    have h5 : 5 < B.receiveIndex := by omega
    simp [Session.microOf, hst, h0, h5]
  have hclose : exec (.rxbyte 0x7E) ((s.putSession B).feed []) = .next (t.mapSession restartReceiving) := by
    rw [exec_rxbyte (S := B) rfl, hmicro, exec_rxFlagDispatch_selected (S := B) rfl hst (by omega), ht]
    rfl
  rw [length_wireFrame, show 2 + (encodeBytes body).length = 1 + (encodeBytes body).length + 1 by omega]
  refine (run_feed_body hb hS body [0x7E] h256).trans ?_
  rw [hB]
  exact run_feed hclose

end

/-- Such a frame with an addressed body for this node: the session `B` that DISPATCH finds. -/
theorem run_feed_addressedFrame {s : State} {S : Session} (hS : s.session = some S) (hb : S.atBoundary)
    (hinv : S.Inv) (source : Byte) {payload : List Byte} (crc : Half) (h1 : 1 ≤ payload.length)
    (h251 : payload.length ≤ 251) :
    ∃ B : Session, B.HoldsFrame source S.ownAddress payload crc ∧
      B.ownAddress = S.ownAddress ∧ B.crcCheckEnable = S.crcCheckEnable ∧
      B.peerSourceAddress = S.peerSourceAddress ∧ B.controlByte = S.controlByte ∧
      B.txb.wf = true ∧ B.plb.wf = true ∧
      ∀ {t : State}, dispatchFrame B ((s.putSession B).feed []) = .next t →
        Host.Core.run Sys2Proof.core
          (wireFrame (addressedBody source S.ownAddress payload crc)).length
          (s.feed (wireFrame (addressedBody source S.ownAddress payload crc))) =
            .next (t.mapSession restartReceiving) := by
  have hlength := length_addressedBody source S.ownAddress payload crc
  have hopened := opened_inv hinv
  exact ⟨_, opened_holdsFrame hb hopened.rxb_wf source S.ownAddress payload crc, opened_ownAddress S,
    opened_crcCheckEnable S, opened_peer S, opened_control S, hopened.txb_wf, hopened.plb_wf,
    fun ht => run_feed_wireFrame hb hS _ (by omega) (by omega) ht⟩

/-! ## The statements -/

/-- Settles O51: the frame assembled is DISPATCH's case CrcError, and the reset leaves `expected_crc`, the peer and
the control octet. -/
theorem corruptFrameIsDropped : Obligations.CorruptFrameIsDropped := by
  intro s S source payload claimed hS hb hinv hen h1 h251 hne
  obtain ⟨B, hframe, hown, hen', hpeer, hctrl, -, -, hrun⟩ :=
    run_feed_addressedFrame hS hb hinv source claimed h1 h251
  have hindex := hframe.index
  have hdispatch := dispatchFrame_corrupt ((s.putSession B).feed []) (by omega) (by omega)
    (hframe.passesFilter hown.symm) (hframe.checksumFails_iff.mpr ⟨hen'.trans hen, hne.symm⟩)
  exact ⟨restartReceiving B.extractFrame, _, rfl, hrun hdispatch, rfl, rfl,
    congrArg some hframe.claimedCrc, hpeer, hctrl⟩

/-- What the reply decision adds to the sink and the events (R167). -/
theorem sendReply_outputs {n : Int} {S : Session} {s t : State} {peer : Byte}
    (hp : S.peerSourceAddress = some peer) (hwf : S.txb.wf = true) (h : sendReply n S s = .next t) :
    (n ≤ 251 → t.events = s.events) ∧ (n ≤ 0 → t.sink = s.sink) ∧
    (251 < n → t.sink = s.sink ∧ t.events = s.events ++ [.lenError n.toNat]) ∧
    (0 < n → n ≤ 251 → t.sink = s.sink ++ wireFrame (addressedBody S.ownAddress peer
      (S.plb.slice 0 n.toNat) (crc16 ([S.ownAddress, peer, 0x13] ++ S.plb.slice 0 n.toNat)))) := by
  rcases sendReply_next h with ⟨hle, rfl⟩ | ⟨hlong, rfl⟩ | ⟨hpos, hle, h⟩
  · exact ⟨fun _ => rfl, fun _ => rfl, fun _ => by omega, fun _ => by omega⟩
  · exact ⟨fun _ => by omega, fun _ => rfl, fun _ => ⟨rfl, rfl⟩, fun _ _ => by omega⟩
  · have hlength : (S.plb.slice 0 n.toNat).length ≤ 251 := by
      rw [Memory.length_slice]
      omega
    obtain rfl := Host.Outcome.next.inj ((transmitFrame_of_peer hp hlength).symm.trans h)
    rw [slice_buildBody_eq_addressedBody hwf]
    exact ⟨fun _ => State.emitAll_events _ _, fun _ => by omega, fun _ => by omega,
      fun _ _ => State.emitAll_sink _ _⟩

/-- Settles O50: the frame assembled is accepted, the processor sees its payload, and the outputs are those of the
reply decision. -/
theorem polledFrameIsAnswered : Obligations.PolledFrameIsAnswered := by
  intro s S a source payload hS hb hinv ha h1 h251
  obtain ⟨B, hframe, hown, -, -, -, htxb, hplb, hrun⟩ :=
    run_feed_addressedFrame hS hb hinv source (crc16 ([source, S.ownAddress, 0x13] ++ payload)) h1 h251
  have hindex := hframe.index
  have hmatch : B.extractFrame.checksumFails = false := by
    rw [← Bool.not_eq_true, hframe.checksumFails_iff]
    exact fun hne => hne.2 rfl
  have hdispatch := dispatchFrame_accepted (s := (s.putSession B).feed []) (by omega) (by omega)
    (hframe.passesFilter hown.symm) hmatch ha
  have hpeer : (B.extractFrame.accept.processed a).peerSourceAddress = some source :=
    congrArg some hframe.header.1
  have hn : B.receiveIndex - 5 = payload.length := by omega
  rw [hn] at hdispatch
  have hseen : B.extractFrame.accept.plb.slice 0 payload.length = payload := by
    rw [← hframe.framePayload]
    exact Memory.slice_fill hplb 0 B.framePayload
  obtain ⟨t, ht⟩ := sendReply_completes (n := a.reply)
    (afterCall ((s.putSession B).feed []) payload.length B.extractFrame.accept a) hpeer
  obtain ⟨hevents, hnone, hlong, hreply⟩ := sendReply_outputs hpeer htxb ht
  rw [afterCall_events] at hevents hlong
  rw [afterCall_sink] at hnone hlong hreply
  obtain ⟨txb, es, bs, hshape, -⟩ := sendReply_sends rfl ht
  refine ⟨t.mapSession restartReceiving, restartReceiving { B.extractFrame.accept.processed a with txb := txb },
    ⟨payload.length, B.extractFrame.accept⟩, _, rfl, hrun (hdispatch.trans ht), ?_, hpeer, rfl, rfl, ?_, rfl,
    hseen, hevents, hnone, hlong, ?_⟩
  · rw [hshape]
    rfl
  · rw [hshape]
    exact afterCall_calls _ _ _ a
  · rintro reply rfl hpos hle
    rw [← hown]
    exact hreply hpos hle

end Sys2Proof.Machine
end
